-- ==== Sys2Proof/Word.lean ====
section
/-! DEFINITION. The word types of PCP-SEQ 1 (spec/00_scope.md R8, spec/10_state.md R20). -/

namespace Sys2Proof

/-- A step word: `WORD_BITS` = 16 (R8, R70). -/
abbrev Word := BitVec 16

/-- One byte of the step-store image (R57). -/
abbrev Byte := BitVec 8

/-- A step address: `CS_BITS` = 7, so the step store has 128 words (R8, R31). -/
abbrev StepAddr := BitVec 7

/-- A delay in whole milliseconds: `TMR_BITS` = 12 (R8, R32). -/
abbrev Millis := BitVec 12

/-- The output latch `OUT` (R24). -/
abbrev Latch := BitVec 6

/-- The flag register `FLAG` (R27). -/
abbrev Flags := BitVec 4

end Sys2Proof
end

