-- ==== Sys2Proof/Syntax.lean ====
section
/-! DEFINITION. The seven step operations of PCP-SEQ 1 and the names their operands range over
(spec/10_state.md R22, R27; spec/30_encoding.md R73, R74, R80). -/

namespace Sys2Proof

/-- The three push buttons, in poll order (R22, R162). -/
inductive Button where
  | reset
  | halt
  | aux
deriving DecidableEq, Repr

/-- The ten named logic lines, in the order of their ids 0 to 9 (R22). -/
inductive Line where
  | btnReset
  | btnHalt
  | btnAux
  | pwrOk
  | dcOk
  | haltReq
  | ledRun
  | ledHalt
  | ledAux
  | pclk
deriving DecidableEq, Repr

/-- The four flags of `FLAG`, in the order of their ids 0 to 3 (R27). -/
inductive Flag where
  | heldR
  | heldH
  | heldA
  | drv
deriving DecidableEq, Repr

/-- The step operations, one constructor per row of spec/opcode_table.json (R73). A bit operand is a
`Bool` (`true` is level 1); a target is an absolute step address (R74). -/
inductive Instr where
  /-- `WR line, v`: write an output line (R93). -/
  | wr (line : Line) (v : Bool)
  /-- `DIR d`: set the direction of the periodic clock line (R94). -/
  | dir (d : Bool)
  /-- `DLY n`: blocking delay of `n` milliseconds (R95). -/
  | dly (n : Millis)
  /-- `BRL line, s, tgt`: branch if the line's level equals `s` (R96). -/
  | brl (line : Line) (s : Bool) (tgt : StepAddr)
  /-- `BRF flag, s, tgt`: branch if the flag equals `s` (R97). -/
  | brf (flag : Flag) (s : Bool) (tgt : StepAddr)
  /-- `WRF flag, v`: write a button's Held bit (R98). -/
  | wrf (flag : Flag) (v : Bool)
  /-- `JMP tgt`: unconditional jump (R99). -/
  | jmp (tgt : StepAddr)
deriving DecidableEq, Repr

/-! Pseudo-operations: each an exact synonym of one word (R80). -/

/-- `SET line`. -/
abbrev Instr.set (line : Line) : Instr := .wr line true
/-- `CLR line`. -/
abbrev Instr.clr (line : Line) : Instr := .wr line false
/-- `DRIVE`. -/
abbrev Instr.drive : Instr := .dir true
/-- `RELEASE`. -/
abbrev Instr.release : Instr := .dir false
/-- The input line of a button (R22). -/
abbrev Button.line : Button → Line
  | .reset => .btnReset
  | .halt => .btnHalt
  | .aux => .btnAux
/-- `BPRESSED b, tgt`: the pressed level is 0 (R23). -/
abbrev Instr.bPressed (b : Button) (tgt : StepAddr) : Instr := .brl b.line false tgt
/-- `BRELEASED b, tgt`: the released level is 1 (R23). -/
abbrev Instr.bReleased (b : Button) (tgt : StepAddr) : Instr := .brl b.line true tgt
/-- `NOP`. -/
abbrev Instr.nop : Instr := .dly 0

end Sys2Proof
end

