-- ==== Sys2Proof/Config.lean ====
section
/-! DEFINITION. What is fixed for the machine: the named timing parameters of spec/00_scope.md R7,
the parameters the spec leaves open (R9), and the free functions that stand for the environment's
levels (R13, R14; spec/20_memory.md R53; spec/93_implementation_defined.md U3, U4, U5). An `opaque`
constant here has no body: no proof can learn a value of it, so what is proved holds for every
environment. -/

namespace Sys2Proof.Config

/-! Timing parameters, in milliseconds, with the spec's values (R7, DEDUCED, log 19). -/

/-- `T_SETTLE`: startup wait before dc-ok. -/
def tSettle : Nat := 1500
/-- `T_DC_PWR`: between dc-ok and power-ok. -/
def tDcPwr : Nat := 10
/-- `T_PWR_RUN`: between power-ok and run-LED. -/
def tPwrRun : Nat := 100
/-- `T_POST`: startup wait after run-LED. -/
def tPost : Nat := 500
/-- `T_RST_PRE`: reset wait before power-ok falls. -/
def tRstPre : Nat := 100
/-- `T_RST_PWR`: reset wait between power-ok and dc-ok falling. -/
def tRstPwr : Nat := 100
/-- `T_RST_DC`: reset wait before dc-ok rises again. -/
def tRstDc : Nat := 100
/-- `T_CONF`: settle delay between two release-confirmation samples. -/
def tConf : Nat := 5
/-- `N_CONF`: consecutive released samples needed, the first one included. -/
def nConf : Nat := 3
/-- `T_LOOP`: inter-cycle delay of the main loop. -/
def tLoop : Nat := 10

/-- The parameters R9 leaves open; no rule of the spec, and nothing in this model, depends on them
(log 8). -/
structure OpenParams where
  /-- `F_CLK`, in hertz. -/
  fClk : Nat
  /-- `F_PCLK`, the frequency of the periodic clock waveform, in millihertz. -/
  fPclk : Nat
  /-- the waveform's duty cycle, in parts per thousand. -/
  pclkDuty : Nat
  /-- `T_EXEC`, the real duration of a step that is no tick, in nanoseconds; the model's time uses 0. -/
  tExec : Nat
  /-- `SYNC_STAGES`; the model's reads use 0. -/
  syncStages : Nat
deriving DecidableEq, Repr, Inhabited

/-- DESIGN CHOICE (log 8, safe): the open parameters, unknown to every proof. -/
opaque openParams : OpenParams

/-- `Btn(b, t)` (R13): the level of a button line at model time `t` of the run after the `epoch`-th
hardware reset; free (log 1). -/
opaque btn : (b : Button) → (epoch t : Nat) → Bool

/-- `Wave(t)` (R14): the external timer's output; free (log 1). -/
opaque wave : (epoch t : Nat) → Bool

/-- What an external source drives on the clock line at `t`, `none` where nothing drives it; free
(R53, log 1). -/
opaque extClock : (epoch t : Nat) → Option Bool

/-- The level the `n`-th read of a released, undriven clock line returns (U3: "an unconstrained bit
drawn per read"); free (log 2). -/
opaque floating : (n : Nat) → Bool

end Sys2Proof.Config
end

