-- ==== Sys2Proof/WellFormed.lean ====
section
/-! DEFINITION. Which operand values an operation accepts (spec/30_encoding.md R74, R75, R76). The
operand types already confine line and flag ids to the ten lines and four flags that exist; what is
left to check is that `WR` names an output line and that `WRF` names a Held bit. -/

namespace Sys2Proof

/-- The lines `WR` may name: ids 3 to 8 (R74, R93). -/
def Line.isOutput : Line → Bool
  | .pwrOk | .dcOk | .haltReq | .ledRun | .ledHalt | .ledAux => true
  | .btnReset | .btnHalt | .btnAux | .pclk => false

/-- The flags `WRF` may name: ids 0 to 2; `DRV` is written by `DIR` only (R76, R98). -/
def Flag.isHeld : Flag → Bool
  | .heldR | .heldH | .heldA => true
  | .drv => false

/-- An instruction whose operands are in the range its encoding accepts (R74). -/
def Instr.wellFormed : Instr → Bool
  | .wr line _ => line.isOutput
  | .dir _ => true
  | .dly _ => true
  | .brl _ _ _ => true
  | .brf _ _ _ => true
  | .wrf flag _ => flag.isHeld
  | .jmp _ => true

end Sys2Proof
end

