-- ==== Sys2Proof/Decode.lean ====
section
/-! DEFINITION. Decoding and encoding of step words (spec/30_encoding.md R70 to R78), total on any
word, and the words as the bytes of the step-store image (spec/20_memory.md R57). -/

namespace Sys2Proof

/-- Why a word is reserved (R76), or why bytes hold no word. DESIGN CHOICE (log 15): the names are
the model's; the spec has one kind of reserved word. -/
inductive Reserved where
  /-- `op` is 0x0 or 0x8..0xF. -/
  | opcode
  /-- `sel` names no line or flag that the operation accepts. -/
  | selector
  /-- a must-be-zero bit of R74 is 1. -/
  | mustBeZero
  /-- fewer than two bytes were given. -/
  | truncated
deriving DecidableEq, Repr

/-! Field positions (R71, R72, R74). -/

/-- `op`, bits 15:12. -/
def opField (w : Word) : BitVec 4 := w.extractLsb' 12 4
/-- `sel`, bits 11:8. -/
def selField (w : Word) : BitVec 4 := w.extractLsb' 8 4
/-- `arg`, bits 7:0. -/
def argField (w : Word) : BitVec 8 := w.extractLsb' 0 8
/-- `n`, bits 11:0 (format D). -/
def delayField (w : Word) : Millis := w.extractLsb' 0 12
/-- `tgt`, bits 6:0. -/
def targetField (w : Word) : StepAddr := w.extractLsb' 0 7
/-- `s`, bit 7. -/
def senseField (w : Word) : Bool := w.getLsbD 7
/-- `v` or `d`, bit 0. -/
def valueField (w : Word) : Bool := w.getLsbD 0
/-- bits 7:1, which `WR`, `DIR` and `WRF` require to be zero. -/
def argHighField (w : Word) : BitVec 7 := w.extractLsb' 1 7

/-- Line ids (R22). -/
def Line.id : Line → BitVec 4
  | .btnReset => 0
  | .btnHalt => 1
  | .btnAux => 2
  | .pwrOk => 3
  | .dcOk => 4
  | .haltReq => 5
  | .ledRun => 6
  | .ledHalt => 7
  | .ledAux => 8
  | .pclk => 9

/-- The line an id names; ids 10 to 15 are reserved (R22). -/
def Line.ofId (k : BitVec 4) : Option Line :=
  match k.toNat with
  | 0 => some .btnReset
  | 1 => some .btnHalt
  | 2 => some .btnAux
  | 3 => some .pwrOk
  | 4 => some .dcOk
  | 5 => some .haltReq
  | 6 => some .ledRun
  | 7 => some .ledHalt
  | 8 => some .ledAux
  | 9 => some .pclk
  | _ => none

/-- Flag ids (R27). -/
def Flag.id : Flag → BitVec 4
  | .heldR => 0
  | .heldH => 1
  | .heldA => 2
  | .drv => 3

/-- The flag an id names; ids 4 to 15 are reserved (R27). -/
def Flag.ofId (k : BitVec 4) : Option Flag :=
  match k.toNat with
  | 0 => some .heldR
  | 1 => some .heldH
  | 2 => some .heldA
  | 3 => some .drv
  | _ => none

/-- `op` 0x1. A line id outside 3 to 8 is reserved, 0x1000 among them (R76, log 16). -/
def decodeWr (w : Word) : Except Reserved Instr :=
  match Line.ofId (selField w) with
  | some l =>
    if l.isOutput = false then .error .selector
    else if argHighField w = 0 then .ok (.wr l (valueField w))
    else .error .mustBeZero
  | none => .error .selector

/-- `op` 0x2. -/
def decodeDir (w : Word) : Except Reserved Instr :=
  if selField w = 0 ∧ argHighField w = 0 then .ok (.dir (valueField w)) else .error .mustBeZero

/-- `op` 0x4. -/
def decodeBrl (w : Word) : Except Reserved Instr :=
  match Line.ofId (selField w) with
  | some l => .ok (.brl l (senseField w) (targetField w))
  | none => .error .selector

/-- `op` 0x5. -/
def decodeBrf (w : Word) : Except Reserved Instr :=
  match Flag.ofId (selField w) with
  | some f => .ok (.brf f (senseField w) (targetField w))
  | none => .error .selector

/-- `op` 0x6. -/
def decodeWrf (w : Word) : Except Reserved Instr :=
  match Flag.ofId (selField w) with
  | some f =>
    if f.isHeld = false then .error .selector
    else if argHighField w = 0 then .ok (.wrf f (valueField w))
    else .error .mustBeZero
  | none => .error .selector

/-- `op` 0x7. -/
def decodeJmp (w : Word) : Except Reserved Instr :=
  if selField w = 0 ∧ senseField w = false then .ok (.jmp (targetField w)) else .error .mustBeZero

/-- The decoder: a total function from words to an operation with its operands, or reserved
(R77, R78). -/
def decodeWord (w : Word) : Except Reserved Instr :=
  match (opField w).toNat with
  | 1 => decodeWr w
  | 2 => decodeDir w
  | 3 => .ok (.dly (delayField w))
  | 4 => decodeBrl w
  | 5 => decodeBrf w
  | 6 => decodeWrf w
  | 7 => decodeJmp w
  | _ => .error .opcode

/-- The two bytes of a word, least significant first (R57). -/
def wordBytes (w : Word) : List Byte := [w.extractLsb' 0 8, w.extractLsb' 8 8]

/-- Decoding from the bytes of the image, the rest of the bytes handed back. -/
def decode : List Byte → Except Reserved (Instr × List Byte)
  | lo :: hi :: rest =>
    match decodeWord (hi ++ lo) with
    | .ok i => .ok (i, rest)
    | .error r => .error r
  | _ => .error .truncated

/-! Assembly of a word from its operands (R71, R72, R74). -/

/-- A word of format S: `op`, `sel`, `arg`, high part first. -/
def formatS (op sel : BitVec 4) (arg : BitVec 8) : Word := (op ++ sel) ++ arg

/-- The `arg` of `WR`, `DIR`, `WRF`: bits 7:1 zero, bit 0 the value. -/
def valueArg (v : Bool) : BitVec 8 := 0#7 ++ BitVec.ofBool v

/-- The `arg` of `BRL`, `BRF`: bit 7 the sense, bits 6:0 the target. -/
def branchArg (s : Bool) (tgt : StepAddr) : BitVec 8 := BitVec.ofBool s ++ tgt

/-- The word of an instruction. -/
def encode : Instr → Word
  | .wr line v => formatS 1 line.id (valueArg v)
  | .dir d => formatS 2 0 (valueArg d)
  | .dly n => 3#4 ++ n
  | .brl line s tgt => formatS 4 line.id (branchArg s tgt)
  | .brf flag s tgt => formatS 5 flag.id (branchArg s tgt)
  | .wrf flag v => formatS 6 flag.id (valueArg v)
  | .jmp tgt => formatS 7 0 (branchArg false tgt)

/-- The bytes of an instruction as the image stores them. -/
def encodeBytes (i : Instr) : List Byte := wordBytes (encode i)

/-- The step word given by the low `nbits` bits of `w`, every bit above them zero. -/
def tableWord (nbits w : Nat) : Word := BitVec.ofNat 16 (w % 2 ^ nbits)

/-- What the decoder reads from the instruction whose bits are `w`, laid out as the image stores a
word. -/
def decodeTableWord (nbits w : Nat) : Option Instr :=
  match decode (wordBytes (tableWord nbits w)) with
  | .ok (i, _) => some i
  | .error _ => none

end Sys2Proof
end

