-- ==== Sys2Proof/Machine/State.lean ====
section
/-! DEFINITION. The state of the block as plain data (spec/10_state.md R20, R34, R40) and its value
after hardware reset (R39). -/

namespace Sys2Proof.Machine

/-- An event an observer outside the block can see (spec/00_scope.md R15). -/
inductive Event where
  /-- `Wr(line, v)`: a `WR` step. -/
  | wr (line : Line) (v : Bool)
  /-- `Dir(d)`: a `DIR` step. -/
  | dir (d : Bool)
  /-- `Edge(b)`: a step that changes `HELD_b` from 0 to 1. -/
  | edge (b : Button)
  /-- `Fault(a)`: ILLEGAL_STEP at step address `a`. -/
  | fault (a : StepAddr)
deriving DecidableEq, Repr

/-- An event with the model time it happened at (R15). -/
structure Stamped where
  time : Nat
  event : Event
deriving DecidableEq, Repr

/-- A level that the environment is known to put on one of the block's inputs. -/
inductive Stimulus where
  /-- on a button line (R13). -/
  | button (b : Button) (level : Bool)
  /-- on `pclk_wave` (R14). -/
  | wave (level : Bool)
  /-- on the clock line from outside; `none`: nothing drives it (R53). -/
  | extClock (level : Option Bool)
deriving DecidableEq, Repr

/-- A known input level over the closed-open interval `[first, past)` of model time. -/
structure Span where
  first : Nat
  past : Nat
  drives : Stimulus
deriving DecidableEq, Repr

/-- The MODEL's own fields (not the spec's state): what is known of the environment. -/
structure Env where
  /-- the level on the `rst_n` pin; `false` is asserted (R21, R200). -/
  rstN : Bool
  /-- how many hardware resets have happened: the free input functions of `Config` take it, so that a
  run after a reset meets inputs of its own (log 11). -/
  epoch : Nat
  /-- the known input levels, the first span that speaks of an input at a time deciding; where none
  does, the level is the free function of `Config` (log 1). -/
  script : List Span
  /-- which free bit the next read of a released, undriven clock line draws (log 2). -/
  draws : Nat
deriving DecidableEq, Repr

/-- Bytes of the step store that differ from the reference image, by byte address, strictly rising
(R51, R57; log 3). -/
abbrev Memory := List Host.Cell

/-- The state (R20), with the step store (R51) and what is known of the environment. -/
structure State where
  /-- `CS`: the step address of the next step word (R31). -/
  cs : StepAddr
  /-- `TMR`: milliseconds left in the current delay (R32). -/
  tmr : Millis
  /-- `OUT`: the output latch (R24). -/
  out : Latch
  /-- `FLAG`: `HELD_R`, `HELD_H`, `HELD_A`, `DRV` (R27). -/
  flag : Flags
  /-- `FAULT`: sticky, a reserved step word was fetched (R33). -/
  fault : Bool
  /-- `now`: model time in milliseconds (ghost, R11, R34). -/
  now : Nat
  /-- `tr`: the event trace, oldest first (ghost, R15, R34). -/
  tr : List Stamped
  /-- `ROM`: the step store (R51); no step writes it. -/
  rom : Memory
  /-- the model's own: the environment. -/
  env : Env
deriving DecidableEq, Repr

/-- Reasons a step could stop the machine. There are none: in every state exactly one step is
enabled and it has a next state (R90); ILLEGAL_STEP is taken, as a next state with `FAULT` set
(R100, R181). Nothing raises a `Fault`, which is safe (log 10). -/
inductive Fault where
deriving DecidableEq, Repr

/-- Reasons a step could have no meaning. The spec has none (R90: "There is no \"refused\" outcome
inside the machine"). -/
inductive Refusal where
  /-- An instruction without a meaning yet; raised by no arm of `exec`, which is safe. -/
  | notModelled (mnemonic : String)
deriving DecidableEq, Repr

/-- The environment at the release of hardware reset: nothing is known of the inputs. DESIGN CHOICE
(log 4, log 11): the pin is released, the counters start at 0. -/
def Env.initial : Env := { rstN := true, epoch := 0, script := [], draws := 0 }

/-- Right after hardware reset, at `now` = 0 (R39, R201): `DRV` is 1 and every other register bit is
0; the step store lists nothing, so it reads as the reference image (R171). -/
def State.reset : State :=
  { cs := 0, tmr := 0, out := 0, flag := 0b1000#4, fault := false, now := 0, tr := [], rom := [],
    env := Env.initial }

end Sys2Proof.Machine
end

