-- ==== Sys2Proof/Machine/Rom.lean ====
section
/-! DEFINITION. The reference image of the step store, complete (spec/44_main_control_loop.md R171),
and its named addresses (spec/20_memory.md R60). -/

namespace Sys2Proof.Machine

/-- The 67 words at 0x00..0x42, in the eight-per-line order of R171's listing. -/
def romWords : List Word :=
  [0x1501, 0x2001, 0x1801, 0x35DC, 0x1401, 0x300A, 0x1301, 0x3064] ++
  [0x1601, 0x31F4, 0x509B, 0x40A1, 0x6001, 0x1501, 0x1700, 0x3064] ++
  [0x1600, 0x1300, 0x3064, 0x1400, 0x3064, 0x1401, 0x300A, 0x1301] ++
  [0x3064, 0x1601, 0x7021, 0x4021, 0x3005, 0x4021, 0x3005, 0x4021] ++
  [0x6000, 0x51AB, 0x41B1, 0x6101, 0x4528, 0x1500, 0x1701, 0x7031] ++
  [0x1501, 0x1700, 0x7031, 0x4131, 0x3005, 0x4131, 0x3005, 0x4131] ++
  [0x6100, 0x52BB, 0x42C1, 0x6201, 0x5338, 0x2000, 0x1800, 0x7041] ++
  [0x2001, 0x1801, 0x7041, 0x4241, 0x3005, 0x4241, 0x3005, 0x4241] ++
  [0x6200, 0x300A, 0x700A]

/-- The image word at a step address; every word above 0x42 is 0x0000 (R51, R171). -/
def imageWord (a : StepAddr) : Word := romWords.getD a.toNat 0

/-- The image as bytes, each word least significant byte first (R57). -/
def imageByte (k : BitVec 8) : Byte :=
  let w := imageWord (k.extractLsb' 1 7)
  if k.getLsbD 0 then w.extractLsb' 8 8 else w.extractLsb' 0 8

/-! Named step addresses (R60). -/

def addrStartup : StepAddr := 0x00
def addrLoop : StepAddr := 0x0A
def addrResetSeq : StepAddr := 0x0D
def addrHaltTog : StepAddr := 0x24
def addrHtRes : StepAddr := 0x28
def addrAuxTog : StepAddr := 0x34
def addrAtOn : StepAddr := 0x38
def addrLoopDly : StepAddr := 0x41

/-- `POLL_b`: where the poll of a button starts (R60, R125). -/
def addrPoll : Button → StepAddr
  | .reset => 0x0A
  | .halt => 0x21
  | .aux => 0x31

/-- `REL_b`: where the release side of a poll starts (R60, R125). -/
def addrRel : Button → StepAddr
  | .reset => 0x1B
  | .halt => 0x2B
  | .aux => 0x3B

/-- `NEXT_b`: where the loop continues after the poll of a button (spec/41_debounced_button.md). -/
def addrNext : Button → StepAddr
  | .reset => 0x21
  | .halt => 0x31
  | .aux => 0x41

/-- The first address of a button's handler (R125). -/
def addrHandler : Button → StepAddr
  | .reset => 0x0D
  | .halt => 0x24
  | .aux => 0x34

end Sys2Proof.Machine
end

