-- ==== Sys2Proof/Machine/Ops.lean ====
section
/-! DEFINITION. The shared operations: single-bit register updates, the step store, fetch, the event
trace, the advance of `CS`, the ticks, taking ILLEGAL_STEP and hardware reset. -/

namespace Sys2Proof.Machine

/-- `v` with bit `i` set to `b`; bits at and above the width do not exist. -/
def setBit {n : Nat} (v : BitVec n) (i : Nat) (b : Bool) : BitVec n :=
  if b then v ||| BitVec.twoPow n i else v &&& ~~~ BitVec.twoPow n i

/-! The step store (spec/20_memory.md R51, R57): 256 bytes; `Memory` lists those that differ from the
reference image. -/

/-- The listed byte at an address, if there is one. -/
def Memory.find : Memory → Nat → Option Byte
  | [], _ => none
  | (k, v) :: rest, a => if k = a then some v else Memory.find rest a

/-- One byte: an unlisted address reads as the reference image (R171, log 3). -/
def Memory.readByte (m : Memory) (a : BitVec 8) : Byte :=
  (Memory.find m a.toNat).getD (imageByte a)

/-- Take an address out of the list. -/
def Memory.drop : Memory → Nat → Memory
  | [], _ => []
  | (k, v) :: rest, a => if k = a then rest else (k, v) :: Memory.drop rest a

/-- List a byte, keeping the addresses rising. -/
def Memory.put : Memory → Nat → Byte → Memory
  | [], a, b => [(a, b)]
  | (k, v) :: rest, a, b =>
    if a < k then (a, b) :: (k, v) :: rest
    else if k = a then (a, b) :: rest
    else (k, v) :: Memory.put rest a b

/-- Write one byte, keeping the canonical form. No step does this (R51): it stands for the build that
fixes the image (R40). -/
def Memory.writeByte (m : Memory) (a : BitVec 8) (b : Byte) : Memory :=
  if b = imageByte a then Memory.drop m a.toNat else Memory.put m a.toNat b

/-- The canonical form from a least address on: addresses strictly rising and inside the store, no
entry equal to the image's byte. -/
def Memory.wfFrom (lo : Nat) : Memory → Bool
  | [] => true
  | (k, v) :: rest =>
    decide (lo ≤ k) && decide (k < 256) && decide (v ≠ imageByte (BitVec.ofNat 8 k))
      && Memory.wfFrom (k + 1) rest

/-- The canonical form. -/
def Memory.wf (m : Memory) : Bool := Memory.wfFrom 0 m

/-- The byte addresses of a word: the least significant byte lies lower (R57). -/
def lowByteAddr (a : StepAddr) : BitVec 8 := a ++ 0#1
def highByteAddr (a : StepAddr) : BitVec 8 := a ++ 1#1

/-- `ROM[a]` (R18, R51). -/
def Memory.readWord (m : Memory) (a : StepAddr) : Word :=
  m.readByte (highByteAddr a) ++ m.readByte (lowByteAddr a)

/-- Put a word into the image (build time, R40). -/
def Memory.writeWord (m : Memory) (a : StepAddr) (w : Word) : Memory :=
  (m.writeByte (lowByteAddr a) (w.extractLsb' 0 8)).writeByte (highByteAddr a) (w.extractLsb' 8 8)

/-! Fetch (R91). -/

/-- The bytes of the word at `CS`, in image order. -/
def State.fetchBytes (s : State) : List Byte :=
  [s.rom.readByte (lowByteAddr s.cs), s.rom.readByte (highByteAddr s.cs)]

/-- What the decoder makes of the word at `CS`. -/
def State.fetch (s : State) : Except Reserved Instr :=
  match decode s.fetchBytes with
  | .ok (i, _) => .ok i
  | .error r => .error r

/-! Sequencing and the trace. -/

/-- Append an event at the present model time (R15). -/
def State.record (e : Event) (s : State) : State := { s with tr := s.tr ++ [⟨s.now, e⟩] }

/-- `CS <- a` (R18). -/
def State.goto (a : StepAddr) (s : State) : State := { s with cs := a }

/-- `CS <- (CS + 1) mod 128` (R31, R101). -/
def State.advance (s : State) : State := s.goto (s.cs + 1)

/-- A conditional transfer: the target if taken, else the next address (R96, R97, R102). -/
def State.branch (taken : Bool) (tgt : StepAddr) (s : State) : State :=
  s.goto (if taken then tgt else s.cs + 1)

/-- `TMR <- n` (R95). -/
def State.loadTimer (n : Millis) (s : State) : State := { s with tmr := n }

/-- Tick step of a running delay (R92). -/
def State.tick (s : State) : State := { s with tmr := s.tmr - 1, now := s.now + 1 }

/-- Tick step of the faulted state: only model time advances (R92). -/
def State.tickFaulted (s : State) : State := { s with now := s.now + 1 }

/-! The fault (R100, R181, R183). -/

/-- Taking ILLEGAL_STEP: `FAULT` is set and the event recorded; every other register keeps its value,
`CS` pointing at the offending word. -/
def State.illegalStep (s : State) : State := ({ s with fault := true }).record (.fault s.cs)

/-- The cause code: 1 is ILLEGAL_STEP, 0 no fault (R181). -/
def State.causeCode (s : State) : Nat := if s.fault then 1 else 0

/-- The faulting address: `CS` serves as it (R181). -/
def State.faultAddr (s : State) : Option StepAddr := if s.fault then some s.cs else none

/-! Hardware reset (R200) and the environment's other actions. -/

/-- The environment's side of a hardware reset: what was known of the inputs of the run that ends is
no longer known (log 4, log 11). -/
def Env.afterReset (e : Env) : Env := { e with epoch := e.epoch + 1, script := [] }

/-- What `rst_n` asserted does, in any state: every register at its reset value (R39, R200). The step
store is no register (R40) and stays. The ghosts are reset too (DEDUCED, log 12). -/
def State.hardReset (s : State) : State :=
  { State.reset with rom := s.rom, env := s.env.afterReset }

/-- The environment puts a level on `rst_n` (R21). Asserting it is asynchronous: every register is at
its reset value at once, with no step taken (R200). Releasing it changes the pin alone: the registers
are then at the values they were held at. -/
def State.driveRst (level : Bool) (s : State) : State :=
  if level then { s with env := { s.env with rstN := true } }
  else { s.hardReset with env := { s.env.afterReset with rstN := false } }

/-- The environment makes an input level known. -/
def State.drive (sp : Span) (s : State) : State :=
  { s with env := { s.env with script := sp :: s.env.script } }

end Sys2Proof.Machine
end

