-- ==== Sys2Proof/Machine/Operands.lean ====
section
/-! DEFINITION. Line access: what each of the ten lines reads as, writing an output line, setting the
clock line's direction (spec/20_memory.md R52 to R56, spec/00_scope.md R13, R14, R18). -/

namespace Sys2Proof.Machine

/-! The environment's levels. -/

/-- The level a span puts on a button at `t`, if it speaks of it. -/
def Span.button? (b : Button) (t : Nat) (sp : Span) : Option Bool :=
  match sp.drives with
  | .button b' level => if b' = b ∧ sp.first ≤ t ∧ t < sp.past then some level else none
  | .wave _ => none
  | .extClock _ => none

/-- The level a span puts on `pclk_wave` at `t`, if it speaks of it. -/
def Span.wave? (t : Nat) (sp : Span) : Option Bool :=
  match sp.drives with
  | .wave level => if sp.first ≤ t ∧ t < sp.past then some level else none
  | .button _ _ => none
  | .extClock _ => none

/-- What a span says of the external clock source at `t`, if it speaks of it. -/
def Span.extClock? (t : Nat) (sp : Span) : Option (Option Bool) :=
  match sp.drives with
  | .extClock level => if sp.first ≤ t ∧ t < sp.past then some level else none
  | .button _ _ => none
  | .wave _ => none

/-- `Btn(b, t)` (R13). -/
def Env.btn (e : Env) (b : Button) (t : Nat) : Bool :=
  (e.script.findSome? (Span.button? b t)).getD (Config.btn b e.epoch t)

/-- `Wave(t)` (R14). -/
def Env.wave (e : Env) (t : Nat) : Bool :=
  (e.script.findSome? (Span.wave? t)).getD (Config.wave e.epoch t)

/-- What an external source drives on the clock line at `t` (R53). -/
def Env.extClock (e : Env) (t : Nat) : Option Bool :=
  (e.script.findSome? (Span.extClock? t)).getD (Config.extClock e.epoch t)

end Sys2Proof.Machine

namespace Sys2Proof

/-! Lines. -/

/-- What stands behind a line id: a button input, a bit of `OUT`, or the clock line (R22, R24). -/
inductive LineKind where
  | input (b : Button)
  | output (bit : Nat)
  | clock
deriving DecidableEq, Repr

/-- R22, R24: bit `OUT[l-3]` belongs to line id `l`. -/
def Line.kind : Line → LineKind
  | .btnReset => .input .reset
  | .btnHalt => .input .halt
  | .btnAux => .input .aux
  | .pwrOk => .output 0
  | .dcOk => .output 1
  | .haltReq => .output 2
  | .ledRun => .output 3
  | .ledHalt => .output 4
  | .ledAux => .output 5
  | .pclk => .clock

end Sys2Proof

namespace Sys2Proof.Machine

/-- `DRV`: 1 is output/driving, 0 is input/released (R29). -/
def State.drv (s : State) : Bool := s.flag.getLsbD 3

/-- `PclkLevel(now)` (R53): the waveform while driving; while released what the external source
drives, and a free bit where nothing does (log 2). An external source is not seen while driving
(DEDUCED, log 13). -/
def State.pclkLevel (s : State) : Bool :=
  if s.drv then s.env.wave s.now
  else (s.env.extClock s.now).getD (Config.floating s.env.draws)

/-- `LineRead(l)` (R18, R52, R53): a button is sampled now; an output line reads back the latch, not
the wire. -/
def State.lineLevel (l : Line) (s : State) : Bool :=
  match l.kind with
  | .input b => s.env.btn b s.now
  | .output k => s.out.getLsbD k
  | .clock => s.pclkLevel

/-- A read has no effect on the block (R52, R59); a read of the released clock line moves the model's
own counter on, so that the next read draws a bit of its own (U3, log 2). -/
def State.noteRead (l : Line) (s : State) : State :=
  match l.kind with
  | .clock => if s.drv then s else { s with env := { s.env with draws := s.env.draws + 1 } }
  | .input _ => s
  | .output _ => s

/-- `LineWrite(l, v)` (R18, R55): the latch bit and the event. The lines that are no output have no
write (R55); `execWr` never reaches this with one. -/
def State.lineWrite (l : Line) (v : Bool) (s : State) : State :=
  match l.kind with
  | .output k => ({ s with out := setBit s.out k v }).record (.wr l v)
  | .input _ => s
  | .clock => s

end Sys2Proof.Machine
end

