-- ==== Sys2Proof/Machine/Flags.lean ====
section
/-! DEFINITION. Flag access: reading any flag, writing a Held bit with its press edge, and `SetDir`
(spec/10_state.md R27 to R29; spec/40_step_ops.md R94, R97, R98). No operation writes a flag as a
side effect (R27). -/

namespace Sys2Proof

/-- The bit of `FLAG` a flag is (R27). -/
def Flag.bit : Flag → Nat
  | .heldR => 0
  | .heldH => 1
  | .heldA => 2
  | .drv => 3

/-- The button whose Held bit a flag is; `DRV` is none (R28). -/
def Flag.button : Flag → Option Button
  | .heldR => some .reset
  | .heldH => some .halt
  | .heldA => some .aux
  | .drv => none

end Sys2Proof

namespace Sys2Proof.Machine

/-- The Held flag of a button (R28). -/
def heldFlag : Button → Flag
  | .reset => .heldR
  | .halt => .heldH
  | .aux => .heldA

/-- `FLAG[f]`. -/
def State.readFlag (f : Flag) (s : State) : Bool := s.flag.getLsbD f.bit

/-- `HELD_b` (R28). -/
def State.held (b : Button) (s : State) : Bool := s.readFlag (heldFlag b)

/-- `HELD_b <- v`; a change from 0 to 1 is the press edge of `b` (R98, R112). -/
def State.writeHeld (b : Button) (v : Bool) (s : State) : State :=
  let t := { s with flag := setBit s.flag (heldFlag b).bit v }
  if v && !s.held b then t.record (.edge b) else t

/-- `SetDir(d)` (R18, R56): `DRV <- d` and the event. -/
def State.setDir (d : Bool) (s : State) : State :=
  ({ s with flag := setBit s.flag Flag.drv.bit d }).record (.dir d)

end Sys2Proof.Machine
end

