-- ==== Sys2Proof/Machine/Control.lean ====
section
/-! DEFINITION. The meanings of `BRL`, `BRF` and `JMP` (spec/40_step_ops.md section 4). -/

namespace Sys2Proof.Machine

/-- `BRL line, s, tgt` (R96): one sample of the line, branch if it equals the sense. -/
def execBrl (line : Line) (sense : Bool) (tgt : StepAddr) (s : State) :
    Host.Outcome State Fault Refusal :=
  .next ((s.noteRead line).branch (s.lineLevel line == sense) tgt)

/-- `BRF flag, s, tgt` (R97). -/
def execBrf (flag : Flag) (sense : Bool) (tgt : StepAddr) (s : State) :
    Host.Outcome State Fault Refusal :=
  .next (s.branch (s.readFlag flag == sense) tgt)

/-- `JMP tgt` (R99). -/
def execJmp (tgt : StepAddr) (s : State) : Host.Outcome State Fault Refusal :=
  .next (s.goto tgt)

end Sys2Proof.Machine
end

