-- ==== Sys2Proof/Machine/Delay.lean ====
section
/-! DEFINITION. The meaning of `DLY` (spec/40_step_ops.md section 3). -/

namespace Sys2Proof.Machine

/-- `DLY n` (R95): the exec step; the `n` tick steps that follow are `State.tick`. -/
def execDly (n : Millis) (s : State) : Host.Outcome State Fault Refusal :=
  .next (s.loadTimer n).advance

end Sys2Proof.Machine
end

