-- ==== Sys2Proof/Machine/Writes.lean ====
section
/-! DEFINITION. The meanings of `WR`, `DIR` and `WRF` (spec/40_step_ops.md section 2). -/

namespace Sys2Proof.Machine

/-- `WR line, v` (R93). A word naming a line that is no output is reserved (R76), so such a term takes
ILLEGAL_STEP as its word does (log 5). -/
def execWr (line : Line) (v : Bool) (s : State) : Host.Outcome State Fault Refusal :=
  if line.isOutput then .next (s.lineWrite line v).advance else .next s.illegalStep

/-- `DIR d` (R94). -/
def execDir (d : Bool) (s : State) : Host.Outcome State Fault Refusal :=
  .next (s.setDir d).advance

/-- `WRF flag, v` (R98). A word naming `DRV` is reserved (R76), so such a term takes ILLEGAL_STEP as
its word does (log 5). -/
def execWrf (flag : Flag) (v : Bool) (s : State) : Host.Outcome State Fault Refusal :=
  match flag.button with
  | some b => .next (s.writeHeld b v).advance
  | none => .next s.illegalStep

end Sys2Proof.Machine
end

