-- ==== Sys2Proof/Machine/Dispatch.lean ====
section
/-! DEFINITION. Which meaning each step operation has. -/

namespace Sys2Proof.Machine

def exec (i : Instr) (s : State) : Host.Outcome State Fault Refusal :=
  match i with
  | .wr line v => Sys2Proof.Machine.execWr line v s
  | .dir d => Sys2Proof.Machine.execDir d s
  | .dly n => Sys2Proof.Machine.execDly n s
  | .brl line sense tgt => Sys2Proof.Machine.execBrl line sense tgt s
  | .brf flag sense tgt => Sys2Proof.Machine.execBrf flag sense tgt s
  | .wrf flag v => Sys2Proof.Machine.execWrf flag v s
  | .jmp tgt => Sys2Proof.Machine.execJmp tgt s

end Sys2Proof.Machine
end

