-- ==== Sys2Proof/Machine/Step.lean ====
section
/-! DEFINITION. The step relation (spec/40_step_ops.md R90 to R92, spec/70_reset_and_hazards.md R200). -/

namespace Sys2Proof.Machine

/-- One step. Hardware reset overrides everything: while the pin is asserted a step leaves every
register at its reset value (R186, R200). With the pin released, exactly one of
the three steps of R90 is enabled: the faulted tick, the tick, the exec step. The guards stand here;
`exec` itself is defined in every state (DEDUCED, log 6). -/
def step (s : State) : Host.Outcome State Fault Refusal :=
  if s.env.rstN = false then .next s.hardReset
  else if s.fault then .next s.tickFaulted
  else if s.tmr ≠ 0 then .next s.tick
  else
    match s.fetch with
    | .ok i => exec i s
    | .error _ => .next s.illegalStep

/-- `s` with the given step word at `CS`, in a state whose next step is an exec step: no delay running,
no fault, `rst_n` released (log 7). -/
def State.withFetchWord (s : State) (nbits w : Nat) : State :=
  { s with
    rom := s.rom.writeWord s.cs (tableWord nbits w)
    tmr := 0
    fault := false
    env := { s.env with rstN := true } }

end Sys2Proof.Machine
end

