-- ==== Sys2Proof/Machine/Asm.lean ====
section
/-! DEFINITION. The assembler's side of PCP-SEQ 1: how an operation is written (spec/30_encoding.md
R79) and how listed words become an image in which every other word is 0x0000 (R79, `.org`). -/

namespace Sys2Proof.Machine

/-- Line names (spec/10_state.md R22). -/
def lineName : Line → String
  | .btnReset => "BTN_RESET"
  | .btnHalt => "BTN_HALT"
  | .btnAux => "BTN_AUX"
  | .pwrOk => "PWR_OK"
  | .dcOk => "DC_OK"
  | .haltReq => "HALT_REQ"
  | .ledRun => "LED_RUN"
  | .ledHalt => "LED_HALT"
  | .ledAux => "LED_AUX"
  | .pclk => "PCLK"

/-- Flag names (spec/10_state.md R27). -/
def flagName : Flag → String
  | .heldR => "HELD_R"
  | .heldH => "HELD_H"
  | .heldA => "HELD_A"
  | .drv => "DRV"

/-- A one-bit operand. -/
def bitText (b : Bool) : String := if b then "1" else "0"

/-- A step address in hexadecimal, two digits. -/
def addrText (a : StepAddr) : String :=
  "0x" ++ String.ofList ((Nat.toDigits 16 (a.toNat + 256)).drop 1 |>.map Char.toUpper)

/-- An operation in assembler text (R79). -/
def asmText : Instr → String
  | .wr l v => "WR " ++ lineName l ++ "," ++ bitText v
  | .dir d => "DIR " ++ bitText d
  | .dly n => "DLY " ++ toString n.toNat
  | .brl l s t => "BRL " ++ lineName l ++ "," ++ bitText s ++ "," ++ addrText t
  | .brf f s t => "BRF " ++ flagName f ++ "," ++ bitText s ++ "," ++ addrText t
  | .wrf f v => "WRF " ++ flagName f ++ "," ++ bitText v
  | .jmp t => "JMP " ++ addrText t

/-- An image in which every word is 0x0000. -/
def Memory.zeroed : Memory :=
  (List.range 128).foldl (fun m a => m.writeWord (BitVec.ofNat 7 a) 0) []

/-- The image of a listing: each operation at its address, words not given 0x0000 (R79). -/
def Memory.assemble (listing : List (StepAddr × Instr)) : Memory :=
  listing.foldl (fun m p => m.writeWord p.1 (encode p.2)) Memory.zeroed

end Sys2Proof.Machine
end

