-- ==== Sys2Proof/Machine/Ports.lean ====
section
/-! DEFINITION. The output ports of the block, as an observer sees them (spec/10_state.md R21,
spec/00_scope.md R14, R15). -/

namespace Sys2Proof.Machine

/-- `PclkPad(now)` (R14): the waveform while driving, `none` (`Z`, released) otherwise (log 17). -/
def State.pclkPad (s : State) : Option Bool := if s.drv then some (s.env.wave s.now) else none

/-- The levels on the output ports (R21). -/
structure Pins where
  pwrOk : Bool
  dcOk : Bool
  haltReq : Bool
  ledRun : Bool
  ledHalt : Bool
  ledAux : Bool
  pclkOe : Bool
  pclkPad : Option Bool
deriving DecidableEq, Repr

/-- The ports driven from `OUT` (R24) and `DRV` (R29). -/
def State.pins (s : State) : Pins :=
  { pwrOk := s.lineLevel .pwrOk
    dcOk := s.lineLevel .dcOk
    haltReq := s.lineLevel .haltReq
    ledRun := s.lineLevel .ledRun
    ledHalt := s.lineLevel .ledHalt
    ledAux := s.lineLevel .ledAux
    pclkOe := s.drv
    pclkPad := s.pclkPad }

end Sys2Proof.Machine
end

