-- ==== Sys2Proof/Machine/Routines.lean ====
section
/-! DEFINITION. The routines as behaviour, from the rules of spec/41_debounced_button.md,
spec/42_bus_power_sequencer.md, spec/43_aux_clock_toggle.md and spec/44_main_control_loop.md, written
without the step store: each takes the state a routine is entered in to the state it is left in, but
for `CS`. R6 asks that running the step store and these rules agree; statements say so (DEDUCED, log 14). -/

namespace Sys2Proof.Machine

/-- `Sleep(n)` (R18) as a whole: `n` milliseconds later, nothing else changed. -/
def State.sleep (n : Nat) (s : State) : State := { s with now := s.now + n }

/-- The startup sequence (R131, R132). -/
def State.startup (s : State) : State :=
  let s := (((s.lineWrite .haltReq true).setDir true).lineWrite .ledAux true).sleep Config.tSettle
  let s := (s.lineWrite .dcOk true).sleep Config.tDcPwr
  let s := (s.lineWrite .pwrOk true).sleep Config.tPwrRun
  (s.lineWrite .ledRun true).sleep Config.tPost

/-- The reset sequence (R134). -/
def State.resetSequence (s : State) : State :=
  let s := ((s.lineWrite .haltReq true).lineWrite .ledHalt false).sleep Config.tRstPre
  let s := ((s.lineWrite .ledRun false).lineWrite .pwrOk false).sleep Config.tRstPwr
  let s := (s.lineWrite .dcOk false).sleep Config.tRstDc
  let s := (s.lineWrite .dcOk true).sleep Config.tDcPwr
  let s := (s.lineWrite .pwrOk true).sleep Config.tPwrRun
  s.lineWrite .ledRun true

/-- The halt/resume toggle (R138): the decision is a read of the latch. -/
def State.haltToggle (s : State) : State :=
  if s.lineLevel .haltReq then (s.lineWrite .haltReq false).lineWrite .ledHalt true
  else (s.lineWrite .haltReq true).lineWrite .ledHalt false

/-- The auxiliary clock toggle (R150): the decision is the stored mode `DRV`. -/
def State.auxToggle (s : State) : State :=
  if s.drv then (s.setDir false).lineWrite .ledAux false
  else (s.setDir true).lineWrite .ledAux true

/-- The handler of a button (R112). -/
def State.handler : Button → State → State
  | .reset => State.resetSequence
  | .halt => State.haltToggle
  | .aux => State.auxToggle

/-- Release confirmation with `k` more samples to take, each a settle delay after the one before; any
pressed sample aborts it, and after the last the button is `Idle` (R114, R115, R116). -/
def State.confirmRelease (b : Button) : Nat → State → State
  | 0, s => s.writeHeld b false
  | k + 1, s =>
    let t := s.sleep Config.tConf
    if t.env.btn b t.now then t.confirmRelease b k else t

/-- A poll of a button (R118): one of the cases of R111 to R116, then it ends (R117). -/
def State.poll (b : Button) (s : State) : State :=
  if s.held b then
    if s.env.btn b s.now then s.confirmRelease b (Config.nConf - 1) else s
  else if s.env.btn b s.now then s
  else (s.writeHeld b true).handler b

/-- One iteration of the main loop (R161): the three polls in order, each with its handler inside it
(R162, R163), then the inter-cycle delay (R164). -/
def State.iteration (s : State) : State :=
  (((s.poll .reset).poll .halt).poll .aux).sleep Config.tLoop

end Sys2Proof.Machine
end

