-- ==== Sys2Proof/Safety.lean ====
section
/-! DEFINITION. What the statements speak of: when a step store is well-formed, the conditions the
spec's rules put on a state, and the states a run visits. -/

namespace Sys2Proof.Machine

/-! Runs. -/

/-- `n` steps from `s` end in `t`. -/
def Steps (n : Nat) (s t : State) : Prop := Host.Core.run Sys2Proof.core n s = .next t

/-- The block right after hardware reset in some environment, the pin released. -/
def Started (s : State) : Prop := ∃ e : Env, e.rstN = true ∧ s = { State.reset with env := e }

/-- A state that a run from hardware reset visits, in some environment, `rst_n` staying released
(spec/00_scope.md R11: `now` counts from the release). -/
def Visited (s : State) : Prop := ∃ s₀ n, Started s₀ ∧ Steps n s₀ s

/-- The next step is an exec step (spec/40_step_ops.md R90). -/
def ExecEnabled (s : State) : Prop := s.env.rstN = true ∧ s.fault = false ∧ s.tmr = 0

/-- As `ExecEnabled`, with the reference image in the step store. -/
def AtReference (s : State) : Prop := ExecEnabled s ∧ s.rom = []

/-- Every byte of the step store reads the same. -/
def SameStore (s t : State) : Prop := ∀ a : BitVec 8, t.rom.readByte a = s.rom.readByte a

/-- Every register, and each ghost, is at its reset value (spec/10_state.md R39). -/
def AtResetValues (s : State) : Prop :=
  s.cs = 0 ∧ s.tmr = 0 ∧ s.out = 0 ∧ s.flag = 0b1000#4 ∧ s.fault = false ∧ s.now = 0 ∧ s.tr = []

/-! The step store: Zeno loops (spec/70_reset_and_hazards.md R208, U2). -/

/-- From step address `a`, every path of steps that take no model time ends, within `k` steps, the last
one included, in a `DLY` of more than 0 ms or in the fault. -/
def settles (m : Memory) : Nat → StepAddr → Bool
  | 0, _ => false
  | k + 1, a =>
    match decodeWord (m.readWord a) with
    | .error _ => true
    | .ok (.dly n) => n != 0 || settles m k (a + 1)
    | .ok (.jmp t) => settles m k t
    | .ok (.brl _ _ t) => settles m k t && settles m k (a + 1)
    | .ok (.brf _ _ t) => settles m k t && settles m k (a + 1)
    | .ok (.wr _ _) => settles m k (a + 1)
    | .ok (.dir _) => settles m k (a + 1)
    | .ok (.wrf _ _) => settles m k (a + 1)

/-- A step store without a Zeno loop: with 128 addresses a path of more than 128 steps that take no
time repeats an address. A model that takes the step store as a parameter rejects one that fails this
(R208); the machine itself still steps (log 9). -/
def zenoFree (m : Memory) : Bool :=
  (List.range 128).all fun a => settles m 128 (BitVec.ofNat 7 a)

/-! Conditions on a state. -/

/-- `halt-request` and `halt-LED` are complements (spec/10_state.md R26). -/
def BusConsistent (s : State) : Prop := s.out.getLsbD 2 = !s.out.getLsbD 4

/-- aux-LED is lit exactly when driving (R30). -/
def AuxConsistent (s : State) : Prop := s.out.getLsbD 5 = s.drv

/-- power-ok only with dc-ok, run-LED only with power-ok (spec/42_bus_power_sequencer.md R141). -/
def PowerOrdered (s : State) : Prop :=
  (s.out.getLsbD 0 = true → s.out.getLsbD 1 = true) ∧
  (s.out.getLsbD 3 = true → s.out.getLsbD 0 = true)

/-- The step address is in the reset sequence's step code (spec/20_memory.md R60). -/
def InResetSequence (s : State) : Prop := 0x0D ≤ s.cs.toNat ∧ s.cs.toNat ≤ 0x1A

/-! The trace (spec/00_scope.md R15, spec/20_memory.md R53, R61). -/

/-- The time stamps never fall, and none lies after `limit`. -/
def Chronological (limit : Nat) (tr : List Stamped) : Prop :=
  tr.Pairwise (fun e f => e.time ≤ f.time) ∧ ∀ e ∈ tr, e.time ≤ limit

/-- The level last written to a line, or `v` if none was. -/
def lastWritten (l : Line) (v : Bool) : List Stamped → Bool
  | [] => v
  | e :: rest =>
    lastWritten l (match e.event with
      | .wr l' v' => if l' = l then v' else v
      | .dir _ => v
      | .edge _ => v
      | .fault _ => v) rest

/-- The direction last set, or `v` if none was. -/
def lastDirection (v : Bool) : List Stamped → Bool
  | [] => v
  | e :: rest =>
    lastDirection (match e.event with
      | .wr _ _ => v
      | .dir d => d
      | .edge _ => v
      | .fault _ => v) rest

/-- An event is the fault. -/
def Event.isFault : Event → Bool
  | .wr _ _ => false
  | .dir _ => false
  | .edge _ => false
  | .fault _ => true

/-- What a state shows is what its trace tells: each output line has the level last written, or its
reset value 0; the clock line the direction last set, or driving; `FAULT` is set exactly when the
trace holds a fault (R53, R61, R100). -/
def TraceTells (s : State) : Prop :=
  (∀ l : Line, l.isOutput = true → s.lineLevel l = lastWritten l false s.tr) ∧
  s.drv = lastDirection true s.tr ∧
  s.fault = s.tr.any (fun e => e.event.isFault)

/-! The states the reference image visits: for each step address, what must hold there. Read from the
image of spec/44_main_control_loop.md R171 and the routines it holds. -/

/-- dc-ok is asserted at this step address. -/
def dcUp (a : Nat) : Bool := (0x05 ≤ a && a ≤ 0x13) || 0x16 ≤ a

/-- power-ok is asserted at this step address. -/
def pwrUp (a : Nat) : Bool := (0x07 ≤ a && a ≤ 0x11) || 0x18 ≤ a

/-- run-LED is lit at this step address. -/
def runUp (a : Nat) : Bool := (0x09 ≤ a && a ≤ 0x10) || 0x1A ≤ a

/-- halt-request and halt-LED at this step address: complements, but between the two writes of a
pair and before the first step. -/
def haltPair (a : Nat) (req led : Bool) : Bool :=
  if a = 0x00 then !req && !led
  else if a ≤ 0x09 then req && !led
  else if a = 0x0E then req
  else if 0x0F ≤ a && a ≤ 0x1A then req && !led
  else if a = 0x25 then req && !led
  else if a = 0x26 then !req && !led
  else if a = 0x28 then !req && led
  else if a = 0x29 then req && led
  else req != led

/-- `DRV` and aux-LED at this step address: equal, but between the two writes of a pair and before the
third step. -/
def auxPair (a : Nat) (drv led : Bool) : Bool :=
  if a ≤ 0x02 then drv && !led
  else if a ≤ 0x09 then drv && led
  else if a = 0x35 then drv && led
  else if a = 0x36 then !drv && led
  else if a = 0x38 then !drv && !led
  else if a = 0x39 then drv && !led
  else drv == led

/-- The Held bits at this step address: clear in startup; that of a button clear on the Idle side of
its poll, set in its handler and on its release side. -/
def heldBits (a : Nat) (r h x : Bool) : Bool :=
  (if a ≤ 0x09 then !r && !h && !x else true) &&
  (if a = 0x0B || a = 0x0C then !r else true) &&
  (if 0x0D ≤ a && a ≤ 0x20 then r else true) &&
  (if a = 0x22 || a = 0x23 then !h else true) &&
  (if 0x24 ≤ a && a ≤ 0x30 then h else true) &&
  (if a = 0x32 || a = 0x33 then !x else true) &&
  (if 0x34 ≤ a && a ≤ 0x40 then x else true)

/-- The longest delay that can be running with the step address here: the operand of the `DLY` just
before it, or 0. -/
def delayBefore (a : Nat) : Nat :=
  if a = 0x04 then 1500
  else if a = 0x06 || a = 0x17 || a = 0x42 then 10
  else if a = 0x08 || a = 0x10 || a = 0x13 || a = 0x15 || a = 0x19 then 100
  else if a = 0x0A then 500
  else if a = 0x1D || a = 0x1F || a = 0x2D || a = 0x2F || a = 0x3D || a = 0x3F then 5
  else 0

/-- The block runs the reference image as the spec says it does. -/
def RefInv (s : State) : Prop :=
  s.rom = [] ∧ s.fault = false ∧ s.cs.toNat ≤ 0x42 ∧
  s.tmr.toNat ≤ delayBefore s.cs.toNat ∧
  s.out.getLsbD 0 = pwrUp s.cs.toNat ∧
  s.out.getLsbD 1 = dcUp s.cs.toNat ∧
  s.out.getLsbD 3 = runUp s.cs.toNat ∧
  haltPair s.cs.toNat (s.out.getLsbD 2) (s.out.getLsbD 4) = true ∧
  auxPair s.cs.toNat s.drv (s.out.getLsbD 5) = true ∧
  heldBits s.cs.toNat (s.held .reset) (s.held .halt) (s.held .aux) = true

/-! What a state of the reference image remembers of the time that has passed. -/

/-- In startup up to the write of run-LED, the latest time the delay running at this step address can
end at (spec/42_bus_power_sequencer.md R131). -/
def startupBy (a : Nat) : Option Nat :=
  if a ≤ 0x03 then some 0
  else if a ≤ 0x05 then some 1500
  else if a ≤ 0x07 then some 1510
  else if a ≤ 0x09 then some 1610
  else none

/-- How long before the end of the running delay the released samples of a button were taken that the
step address stands for (spec/41_debounced_button.md R114 to R116, R125). -/
def releasedSamples (b : Button) (a : Nat) : List Nat :=
  if a = (addrRel b).toNat + 1 then [0]
  else if a = (addrRel b).toNat + 2 then [5]
  else if a = (addrRel b).toNat + 3 then [5, 0]
  else if a = (addrRel b).toNat + 4 then [10, 5]
  else if a = (addrRel b).toNat + 5 then [10, 5, 0]
  else []

/-- Startup is on time, and every released sample that the step address stands for was taken. -/
def OnTime (s : State) : Prop :=
  (∀ limit ∈ startupBy s.cs.toNat, s.now + s.tmr.toNat ≤ limit) ∧
  ∀ b : Button, ∀ d ∈ releasedSamples b s.cs.toNat,
    d ≤ s.now + s.tmr.toNat ∧ s.env.btn b (s.now + s.tmr.toNat - d) = true

end Sys2Proof.Machine
end

