-- ==== Sys2Proof/Certificates/Slice0/Obligations.lean ====
section
/-! DEFINITION. The statements for the provers. Each docstring names the rules it formalises; where a
clause rests on the model's own choice it names the log entry. -/

open Sys2Proof Sys2Proof.Machine

/-! Encoding. -/

/-- R75, R78: the mask, match and range condition of each row, on every word. -/
def Obligations.DecodeFollowsTheTable : Prop :=
  ∀ w : Word,
    let sel := ((w >>> 8) &&& 0xF).toNat
    ((w &&& 0xF0FE = 0x1000 ∧ 3 ≤ sel ∧ sel ≤ 8) ↔ ∃ l v, decodeWord w = .ok (.wr l v)) ∧
    (w &&& 0xFFFE = 0x2000 ↔ ∃ d, decodeWord w = .ok (.dir d)) ∧
    (w &&& 0xF000 = 0x3000 ↔ ∃ n, decodeWord w = .ok (.dly n)) ∧
    ((w &&& 0xF000 = 0x4000 ∧ sel ≤ 9) ↔ ∃ l c a, decodeWord w = .ok (.brl l c a)) ∧
    ((w &&& 0xF000 = 0x5000 ∧ sel ≤ 3) ↔ ∃ f c a, decodeWord w = .ok (.brf f c a)) ∧
    ((w &&& 0xF0FE = 0x6000 ∧ sel ≤ 2) ↔ ∃ f v, decodeWord w = .ok (.wrf f v)) ∧
    (w &&& 0xFF80 = 0x7000 ↔ ∃ a, decodeWord w = .ok (.jmp a))

/-- R76's list of when a word is reserved, on every word. -/
def Obligations.ReservedWordsAreTheListed : Prop :=
  ∀ w : Word,
    let op := (w >>> 12).toNat
    let sel := ((w >>> 8) &&& 0xF).toNat
    (∃ r, decodeWord w = .error r) ↔
      op = 0 ∨ 8 ≤ op ∨
      (op = 1 ∧ (sel < 3 ∨ 8 < sel)) ∨ (op = 4 ∧ 10 ≤ sel) ∨ (op = 5 ∧ 4 ≤ sel) ∨
      (op = 6 ∧ 3 ≤ sel) ∨
      (op = 1 ∧ w &&& 0x00FE ≠ 0) ∨ (op = 2 ∧ w &&& 0x0FFE ≠ 0) ∨ (op = 6 ∧ w &&& 0x00FE ≠ 0) ∨
      (op = 7 ∧ w &&& 0x0F80 ≠ 0)

/-- Decoding an encoded well-formed instruction gives it back, as a word and as bytes. -/
def Obligations.DecodeOfEncodeIsTheInstruction : Prop :=
  ∀ i : Instr, i.wellFormed = true →
    decodeWord (encode i) = .ok i ∧
    ∀ rest : List Byte, decode (encodeBytes i ++ rest) = .ok (i, rest)

/-- An accepted word decodes to a well-formed instruction, and encoding that gives the word back: each
accepted word has exactly one meaning, and no bit of it is dropped. -/
def Obligations.EncodeOfDecodeIsTheWord : Prop :=
  ∀ (w : Word) (i : Instr), decodeWord w = .ok i → i.wellFormed = true ∧ encode i = w

/-- R81's worked encodings. -/
def Obligations.WorkedEncodingsDecode : Prop :=
  decodeWord 0x1501 = .ok (.wr .haltReq true) ∧
  decodeWord 0x1700 = .ok (.wr .ledHalt false) ∧
  decodeWord 0x2000 = .ok (.dir false) ∧
  decodeWord 0x35DC = .ok (.dly 1500) ∧
  decodeWord 0x3005 = .ok (.dly 5) ∧
  decodeWord 0x40A1 = .ok (.brl .btnReset true 0x21) ∧
  decodeWord 0x4528 = .ok (.brl .haltReq false 0x28) ∧
  decodeWord 0x509B = .ok (.brf .heldR true 0x1B) ∧
  decodeWord 0x5338 = .ok (.brf .drv false 0x38) ∧
  decodeWord 0x6201 = .ok (.wrf .heldA true) ∧
  decodeWord 0x700A = .ok (.jmp 0x0A) ∧
  (∀ w ∈ ([0x0000, 0x1001, 0x1901, 0x1502, 0x2100, 0x4A00, 0x5400, 0x6301, 0x7080, 0x8000] : List Word),
    ∃ r, decodeWord w = .error r)

/-! The step operations. -/

/-- R93. -/
def Obligations.WrWritesOneOutputLine : Prop :=
  (∀ (l : Line) (v : Bool) (s : State), 3 ≤ l.id.toNat → l.id.toNat ≤ 8 →
    decodeWord (0x1000#16 ||| (l.id.setWidth 16 <<< 8) ||| (BitVec.ofBool v).setWidth 16) =
      .ok (.wr l v) ∧
    ∃ t, exec (.wr l v) s = .next t ∧
      (∀ k, k < 6 → t.out.getLsbD k = if k = l.id.toNat - 3 then v else s.out.getLsbD k) ∧
      t = { s with out := t.out, tr := s.tr ++ [⟨s.now, .wr l v⟩], cs := s.cs + 1 }) ∧
  (∀ w : Word, w >>> 12 = 1 →
    (((w >>> 8) &&& 0xF).toNat < 3 ∨ 8 < ((w >>> 8) &&& 0xF).toNat ∨ w &&& 0x00FE ≠ 0) →
    ∃ r, decodeWord w = .error r)

/-- R94. -/
def Obligations.DirSetsTheDirection : Prop :=
  ∀ (d : Bool) (s : State),
    decodeWord (0x2000#16 ||| (BitVec.ofBool d).setWidth 16) = .ok (.dir d) ∧
    ∃ t, exec (.dir d) s = .next t ∧
      (∀ k, k < 4 → t.flag.getLsbD k = if k = 3 then d else s.flag.getLsbD k) ∧
      t = { s with flag := t.flag, tr := s.tr ++ [⟨s.now, .dir d⟩], cs := s.cs + 1 } ∧
      t.pclkPad = if d then some (s.env.wave s.now) else none

/-- R98. -/
def Obligations.WrfWritesOneHeldBit : Prop :=
  (∀ (f : Flag) (b : Button) (v : Bool) (s : State), b.line.id = f.id →
    decodeWord (0x6000#16 ||| (f.id.setWidth 16 <<< 8) ||| (BitVec.ofBool v).setWidth 16) =
      .ok (.wrf f v) ∧
    ∃ t, exec (.wrf f v) s = .next t ∧
      (∀ k, k < 4 → t.flag.getLsbD k = if k = f.id.toNat then v else s.flag.getLsbD k) ∧
      t = { s with
        flag := t.flag
        tr := if v = true ∧ s.flag.getLsbD f.id.toNat = false then s.tr ++ [⟨s.now, .edge b⟩]
              else s.tr
        cs := s.cs + 1 }) ∧
  (∀ w : Word, w >>> 12 = 6 → (w >>> 8) &&& 0xF = 3 → ∃ r, decodeWord w = .error r)

/-- R95: the exec step, then exactly `n` tick steps, of which the `j`-th leaves `n - j`. -/
def Obligations.DlyWaitsExactly : Prop :=
  ∀ (n : Millis) (s : State),
    decodeWord (0x3000#16 ||| n.setWidth 16) = .ok (.dly n) ∧
    exec (.dly n) s = .next { s with tmr := n, cs := s.cs + 1 } ∧
    (s.env.rstN = true → s.fault = false →
      (∀ j, j ≤ n.toNat →
        Steps j { s with tmr := n, cs := s.cs + 1 }
          { s with tmr := n - BitVec.ofNat 12 j, cs := s.cs + 1, now := s.now + j }) ∧
      ExecEnabled { s with tmr := 0, cs := s.cs + 1, now := s.now + n.toNat })

/-- R96: every line; of a released clock line that nothing drives, only that some bit is read. -/
def Obligations.BrlBranchesOnTheLineLevel : Prop :=
  ∀ (l : Line) (c : Bool) (a : StepAddr) (s : State),
    decodeWord (0x4000#16 ||| (l.id.setWidth 16 <<< 8) ||| ((BitVec.ofBool c).setWidth 16 <<< 7) |||
      a.setWidth 16) = .ok (.brl l c a) ∧
    ∃ (t : State) (level : Bool), exec (.brl l c a) s = .next t ∧
      (∀ b : Button, b.line = l → level = s.env.btn b s.now) ∧
      (3 ≤ l.id.toNat → l.id.toNat ≤ 8 → level = s.out.getLsbD (l.id.toNat - 3)) ∧
      (l = .pclk → s.flag.getLsbD 3 = true → level = s.env.wave s.now) ∧
      (∀ x, l = .pclk → s.flag.getLsbD 3 = false → s.env.extClock s.now = some x → level = x) ∧
      t = { s with
        cs := if level = c then a else s.cs + 1
        env := { s.env with draws := t.env.draws } } ∧
      (l ≠ .pclk → t.env = s.env)

/-- U3 with log 2 (the model's choice): every read of a released clock line that nothing drives
returns the free bit at the count of draws, and moves the count on, so no two reads share a bit. -/
def Obligations.ReleasedClockLineDrawsFreshBits : Prop :=
  ∀ (c : Bool) (a : StepAddr) (s : State),
    s.flag.getLsbD 3 = false → s.env.extClock s.now = none →
    exec (.brl .pclk c a) s = .next { s with
      cs := if Config.floating s.env.draws = c then a else s.cs + 1
      env := { s.env with draws := s.env.draws + 1 } }

/-- R97. -/
def Obligations.BrfBranchesOnTheFlag : Prop :=
  ∀ (f : Flag) (c : Bool) (a : StepAddr) (s : State),
    decodeWord (0x5000#16 ||| (f.id.setWidth 16 <<< 8) ||| ((BitVec.ofBool c).setWidth 16 <<< 7) |||
      a.setWidth 16) = .ok (.brf f c a) ∧
    exec (.brf f c a) s =
      .next { s with cs := if s.flag.getLsbD f.id.toNat = c then a else s.cs + 1 }

/-- R99. -/
def Obligations.JmpLoadsTheTarget : Prop :=
  ∀ (a : StepAddr) (s : State),
    decodeWord (0x7000#16 ||| a.setWidth 16) = .ok (.jmp a) ∧
    exec (.jmp a) s = .next { s with cs := a }

/-- Log 5 (read from R76): a term that names a line or flag its operation does not accept takes
ILLEGAL_STEP, as its word does; no accepted word decodes to one. -/
def Obligations.IllFormedTermsTakeTheFault : Prop :=
  ∀ (i : Instr) (s : State), i.wellFormed = false →
    (∃ r, decodeWord (encode i) = .error r) ∧
    exec i s = .next { s with fault := true, tr := s.tr ++ [⟨s.now, .fault s.cs⟩] }

/-- What each operation may write (the table of R20, R24, R27, R32): everything else stays. -/
def Obligations.OnlyTheNamedOperationsWrite : Prop :=
  ∀ (i : Instr) (s t : State), i.wellFormed = true → exec i s = .next t →
    (t.out ≠ s.out → ∃ l v, i = .wr l v) ∧
    (t.flag ≠ s.flag → (∃ d, i = .dir d) ∨ ∃ f v, i = .wrf f v) ∧
    (t.tmr ≠ s.tmr → ∃ n, i = .dly n) ∧
    (t.tr ≠ s.tr → (∃ l v, i = .wr l v) ∨ (∃ d, i = .dir d) ∨ ∃ f, i = .wrf f true) ∧
    (t.env ≠ s.env → ∃ c a, i = .brl .pclk c a) ∧
    t.fault = s.fault ∧ t.now = s.now

/-- The environment reaches the block only through a `BRL` on an input line or the clock line (R34,
R64, R97): with any other operation the same thing happens in every environment. -/
def Obligations.OnlyLineReadsSeeTheEnvironment : Prop :=
  ∀ (i : Instr) (s t : State) (e : Env),
    (∀ l c a, i = .brl l c a → l.isOutput = true) → exec i s = .next t →
    exec i { s with env := e } = .next { t with env := e }

/-! The step relation. -/

/-- R90, R92: with `rst_n` released exactly one of the three steps is enabled, chosen by the state. -/
def Obligations.OneOfThreeStepsIsEnabled : Prop :=
  ∀ s : State, s.env.rstN = true →
    (s.fault = true → step s = .next { s with now := s.now + 1 }) ∧
    (s.fault = false → s.tmr ≠ 0 →
      step s = .next { s with tmr := s.tmr - 1, now := s.now + 1 }) ∧
    (s.fault = false → s.tmr = 0 →
      (∀ i, decodeWord (s.rom.readWord s.cs) = .ok i → step s = exec i s) ∧
      (∀ r, decodeWord (s.rom.readWord s.cs) = .error r →
        step s = .next { s with fault := true, tr := s.tr ++ [⟨s.now, .fault s.cs⟩] })) ∧
    ∃ t, step s = .next t

/-- R91: an exec step decodes the word at `CS` and runs it, in no model time. -/
def Obligations.StepRunsTheDecodedInstruction : Prop :=
  ∀ (s : State) (i : Instr), ExecEnabled s → decodeWord (s.rom.readWord s.cs) = .ok i →
    i.wellFormed = true ∧ step s = exec i s ∧ ∃ t, step s = .next t ∧ t.now = s.now

/-- Log 7 (the model's own operation): `withFetchWord` makes the very next step run the word's
instruction. -/
def Obligations.WithFetchWordRunsTheWord : Prop :=
  ∀ (s : State) (nbits w : Nat) (i : Instr), s.rom.wf = true →
    decodeTableWord nbits w = some i →
    step (s.withFetchWord nbits w) = exec i (s.withFetchWord nbits w) ∧
    (∀ a : StepAddr, a ≠ s.cs →
      (s.withFetchWord nbits w).rom.readWord a = s.rom.readWord a) ∧
    (s.withFetchWord nbits w).rom.wf = true

/-- R100: taking ILLEGAL_STEP, and that only faulted ticks follow until hardware reset. -/
def Obligations.ReservedWordTakesTheFault : Prop :=
  ∀ (s : State) (r : Reserved), ExecEnabled s → decodeWord (s.rom.readWord s.cs) = .error r →
    ∃ t, step s = .next t ∧
      t = { s with fault := true, tr := s.tr ++ [⟨s.now, .fault s.cs⟩] } ∧
      (∀ n, Steps n t { t with now := t.now + n }) ∧
      (t.driveRst false).fault = false ∧ ∃ u, step (t.driveRst false) = .next u ∧ u.fault = false

/-- R181: raised by an exec step whose word is reserved and by nothing else; what it records. -/
def Obligations.FaultIsRaisedByReservedWordsOnly : Prop :=
  ∀ s t : State, s.fault = false → step s = .next t →
    (t.fault = true ↔ ExecEnabled s ∧ ∃ r, decodeWord (s.rom.readWord s.cs) = .error r) ∧
    (t.fault = true → t.causeCode = 1 ∧ t.faultAddr = some s.cs ∧ t.cs = s.cs) ∧
    (t.fault = false → t.causeCode = 0)

/-- R183, R184: no way out of the faulted state but hardware reset; everything but model time holds,
`TMR` included. -/
def Obligations.FaultedStateHolds : Prop :=
  ∀ (s : State) (n : Nat), s.fault = true → s.env.rstN = true →
    Steps n s { s with now := s.now + n }

/-- R200: `rst_n` asserted, in any state: the reset values at once, with no step taken; every step
leaves them there while it stays asserted; the first step after the release fetches the word at 0x00,
also when no step came between assertion and release. -/
def Obligations.HardwareResetRestoresResetValues : Prop :=
  (∀ s : State, AtResetValues (s.driveRst false) ∧ (s.driveRst false).env.rstN = false ∧
    SameStore s (s.driveRst false)) ∧
  (∀ s : State, s.env.rstN = false →
    ∃ t, step s = .next t ∧ AtResetValues t ∧ t.env.rstN = false ∧ SameStore s t) ∧
  (∀ s : State, AtResetValues s →
    AtResetValues (s.driveRst true) ∧ ExecEnabled (s.driveRst true) ∧
    SameStore s (s.driveRst true) ∧
    ∀ i, decodeWord (s.rom.readWord 0x00) = .ok i →
      step (s.driveRst true) = exec i (s.driveRst true))

/-- R39, R201. -/
def Obligations.ResetValuesAreTheSpecs : Prop :=
  State.reset.cs = 0x00 ∧ State.reset.tmr = 0 ∧ State.reset.fault = false ∧
  State.reset.flag = 0b1000#4 ∧ (∀ b : Button, State.reset.held b = false) ∧
  State.reset.drv = true ∧ State.reset.out = 0b000000#6 ∧
  State.reset.now = 0 ∧ State.reset.tr = []

/-- R11: model time advances only by tick steps, one millisecond each. -/
def Obligations.TimeAdvancesOnlyByTicks : Prop :=
  State.reset.now = 0 ∧
  ∀ s t : State, s.env.rstN = true → step s = .next t →
    t.now = if s.tmr ≠ 0 ∨ s.fault = true then s.now + 1 else s.now

/-- R51, R63: no instruction and no step writes the step store; it reads as the reference image from
reset on, 0x0000 above 0x42. -/
def Obligations.StepStoreIsNeverWritten : Prop :=
  (∀ (i : Instr) (s t : State), exec i s = .next t → SameStore s t) ∧
  (∀ (n : Nat) (s t : State), Steps n s t →
    SameStore s t ∧ ∀ a : StepAddr, t.rom.readWord a = s.rom.readWord a) ∧
  (∀ a : StepAddr, 0x43 ≤ a.toNat → State.reset.rom.readWord a = 0)

/-! Memory. -/

/-- Two step stores in canonical form that read alike are the same data (log 3, the model's own
form). -/
def Obligations.CanonicalStoresReadingAlikeAreEqual : Prop :=
  ∀ m m' : Memory, m.wf = true → m'.wf = true →
    (∀ a : BitVec 8, m.readByte a = m'.readByte a) → m = m'

/-- A word put into the image is read back, every other word as before (log 3). -/
def Obligations.WrittenWordReadsBack : Prop :=
  ∀ (m : Memory) (a c : StepAddr) (w : Word), m.wf = true →
    (m.writeWord a w).readWord c = if c = a then w else m.readWord c

/-! The trace. -/

/-- R61's order: the trace only grows, at its end, and is never read. -/
def Obligations.TraceOnlyGrowsAndIsNeverRead : Prop :=
  ∀ (s t : State) (tr : List Stamped), s.env.rstN = true → step s = .next t →
    ∃ new, t.tr = s.tr ++ new ∧ (∀ e ∈ new, e.time = s.now) ∧
      step { s with tr := tr } = .next { t with tr := tr ++ new }

/-- Every step keeps the trace in time order, with no event in the future (R15, R61). -/
def Obligations.TraceStaysChronological : Prop :=
  ∀ s t : State, Chronological s.now s.tr → step s = .next t → Chronological t.now t.tr

/-- R53, R61, R100: every step keeps the agreement of lines, direction and fault with the trace. -/
def Obligations.LinesFollowTheTrace : Prop :=
  ∀ s t : State, TraceTells s → step s = .next t → TraceTells t

/-- The agreement holds right after reset. -/
def Obligations.LinesFollowTheTraceAtReset : Prop :=
  TraceTells State.reset ∧ Chronological State.reset.now State.reset.tr

/-! Ports and environment. -/

/-- R14, with the ports of R21: what an observer sees. -/
def Obligations.PortsShowTheLatchAndTheDirection : Prop :=
  ∀ s : State,
    s.pclkPad = (if s.flag.getLsbD 3 = true then some (s.env.wave s.now) else none) ∧
    s.pins.pclkPad = s.pclkPad ∧ s.pins.pclkOe = s.flag.getLsbD 3 ∧
    s.pins.pwrOk = s.out.getLsbD 0 ∧ s.pins.dcOk = s.out.getLsbD 1 ∧
    s.pins.haltReq = s.out.getLsbD 2 ∧ s.pins.ledRun = s.out.getLsbD 3 ∧
    s.pins.ledHalt = s.out.getLsbD 4 ∧ s.pins.ledAux = s.out.getLsbD 5

/-- Log 1 (the model's way to hold an environment): over any horizon, every function is the buttons'
behaviour in some environment, as R13 asks. -/
def Obligations.EveryButtonBehaviourIsAdmitted : Prop :=
  ∀ (f : Button → Nat → Bool) (horizon : Nat), ∃ script : List Span,
    ∀ e : Env, e.script = script → ∀ (b : Button) (t : Nat), t < horizon → e.btn b t = f b t

/-! The reference image. -/

/-- R171: the listing's step column, word by word. -/
def Obligations.ReferenceImageIsTheListing : Prop :=
  (List.range 0x43).map (fun k => decodeWord (State.reset.rom.readWord (BitVec.ofNat 7 k))) =
    (([ -- STARTUP
        .wr .haltReq true, .dir true, .wr .ledAux true, .dly 1500, .wr .dcOk true, .dly 10,
        .wr .pwrOk true, .dly 100, .wr .ledRun true, .dly 500,
        -- POLL_R
        .brf .heldR true 0x1B, .brl .btnReset true 0x21, .wrf .heldR true,
        -- RESETSEQ
        .wr .haltReq true, .wr .ledHalt false, .dly 100, .wr .ledRun false, .wr .pwrOk false,
        .dly 100, .wr .dcOk false, .dly 100, .wr .dcOk true, .dly 10, .wr .pwrOk true, .dly 100,
        .wr .ledRun true, .jmp 0x21,
        -- REL_R
        .brl .btnReset false 0x21, .dly 5, .brl .btnReset false 0x21, .dly 5,
        .brl .btnReset false 0x21, .wrf .heldR false,
        -- POLL_H
        .brf .heldH true 0x2B, .brl .btnHalt true 0x31, .wrf .heldH true,
        -- HALTTOG
        .brl .haltReq false 0x28, .wr .haltReq false, .wr .ledHalt true, .jmp 0x31,
        .wr .haltReq true, .wr .ledHalt false, .jmp 0x31,
        -- REL_H
        .brl .btnHalt false 0x31, .dly 5, .brl .btnHalt false 0x31, .dly 5,
        .brl .btnHalt false 0x31, .wrf .heldH false,
        -- POLL_A
        .brf .heldA true 0x3B, .brl .btnAux true 0x41, .wrf .heldA true,
        -- AUXTOG
        .brf .drv false 0x38, .dir false, .wr .ledAux false, .jmp 0x41, .dir true,
        .wr .ledAux true, .jmp 0x41,
        -- REL_A
        .brl .btnAux false 0x41, .dly 5, .brl .btnAux false 0x41, .dly 5,
        .brl .btnAux false 0x41, .wrf .heldA false,
        -- LOOPDLY
        .dly 10, .jmp 0x0A ] : List Instr).map Except.ok) ∧
  ∀ a : StepAddr, 0x43 ≤ a.toNat → State.reset.rom.readWord a = 0x0000

/-- R7: the delays of the image are the named timing parameters. -/
def Obligations.ReferenceImageCarriesTheTimingParameters : Prop :=
  (List.map (fun a : StepAddr => decodeWord (State.reset.rom.readWord a))
      [0x03, 0x05, 0x07, 0x09, 0x0F, 0x12, 0x14, 0x16, 0x18, 0x1C, 0x1E, 0x2C, 0x2E, 0x3C, 0x3E, 0x41]) =
    (List.map (fun n : Nat => Except.ok (Instr.dly (BitVec.ofNat 12 n)))
      [Config.tSettle, Config.tDcPwr, Config.tPwrRun, Config.tPost, Config.tRstPre, Config.tRstPwr,
       Config.tRstDc, Config.tDcPwr, Config.tPwrRun, Config.tConf, Config.tConf, Config.tConf,
       Config.tConf, Config.tConf, Config.tConf, Config.tLoop]) ∧
  Config.tSettle = 1500 ∧ Config.tDcPwr = 10 ∧ Config.tPwrRun = 100 ∧ Config.tPost = 500 ∧
  Config.tRstPre = 100 ∧ Config.tRstPwr = 100 ∧ Config.tRstDc = 100 ∧ Config.tConf = 5 ∧
  Config.nConf = 3 ∧ Config.tLoop = 10

/-- What the spec derives in R172 of the reference image: no reserved word, where targets lie, which
delays, lines and flags occur. -/
def Obligations.ReferenceImageIsWellFormed : Prop :=
  let at' (k : Nat) := decodeWord (State.reset.rom.readWord (BitVec.ofNat 7 k))
  (∀ k, k ≤ 0x42 → ∃ i, at' k = .ok i) ∧
  (∀ k a, k ≤ 0x42 →
    (at' k = .ok (.jmp a) ∨ (∃ l c, at' k = .ok (.brl l c a)) ∨ ∃ f c, at' k = .ok (.brf f c a)) →
    0x0A ≤ a.toNat ∧ a.toNat ≤ 0x41) ∧
  (∃ a, at' 0x42 = .ok (.jmp a)) ∧
  (∀ k n, k ≤ 0x42 → at' k = .ok (.dly n) → n.toNat ∈ [5, 10, 100, 500, 1500]) ∧
  (∀ k l c a, k ≤ 0x42 → at' k = .ok (.brl l c a) →
    l = .btnReset ∨ l = .btnHalt ∨ l = .btnAux ∨ l = .haltReq) ∧
  (∀ l : Line, l.isOutput = true → ∃ k v, k ≤ 0x42 ∧ at' k = .ok (.wr l v)) ∧
  (∀ f : Flag, ∃ k c a, k ≤ 0x42 ∧ at' k = .ok (.brf f c a)) ∧
  (∀ f : Flag, f.isHeld = true → ∃ k v, k ≤ 0x42 ∧ at' k = .ok (.wrf f v)) ∧
  (∀ d : Bool, ∃ k, k ≤ 0x42 ∧ at' k = .ok (.dir d))

/-- Every step keeps the table of what holds at each step address of the reference image, in every
environment and through hardware resets (read from R131, R134, R138, R150 and the image of R171). -/
def Obligations.ReferenceInvariantIsKept : Prop :=
  ∀ s t : State, RefInv s → step s = .next t → RefInv t

/-- It holds right after reset. -/
def Obligations.ReferenceInvariantAtReset : Prop := RefInv State.reset

/-- In a state of that table, every step keeps startup on time and the released samples of a
confirmation where the step address says they were taken (read from R114 to R116, R131 and the image
of R171). -/
def Obligations.TimeAndSamplesAreKept : Prop :=
  ∀ s t : State, RefInv s → OnTime s → step s = .next t → OnTime t

/-- The table and the times hold right after reset, in every environment, and at once when `rst_n` is
asserted in a state of the table (R200). -/
def Obligations.TimeAndSamplesAtReset : Prop :=
  (∀ s : State, Started s → RefInv s ∧ OnTime s) ∧
  ∀ s : State, RefInv s → RefInv (s.driveRst false) ∧ OnTime (s.driveRst false)

/-- What the spec derives in R98 of the reference image: `WRF` is executed there only where it changes
the bit, so every `WRF f,1` of a run is a press edge. -/
def Obligations.ReferenceImageWritesHeldOnlyToChangeIt : Prop :=
  ∀ (s : State) (f : Flag) (v : Bool), RefInv s →
    decodeWord (s.rom.readWord s.cs) = .ok (.wrf f v) → s.readFlag f = !v

/-- R26: halt-request and halt-LED are complements in every state a run visits with a delay running;
both are 0 at reset, and the first step sets halt-request at `now` = 0. -/
def Obligations.BusStatusStaysConsistent : Prop :=
  (∀ s : State, Visited s → s.tmr ≠ 0 → BusConsistent s) ∧
  State.reset.out.getLsbD 2 = false ∧ State.reset.out.getLsbD 4 = false ∧
  ∀ s : State, Started s → ∃ t, step s = .next t ∧ t.out.getLsbD 2 = true ∧ t.now = 0

/-- R30: aux-LED shows the clock mode in every state a run visits with a delay running, and already
after the third step of startup. -/
def Obligations.AuxLedShowsTheClockMode : Prop :=
  (∀ s : State, Visited s → s.tmr ≠ 0 → AuxConsistent s) ∧
  State.reset.drv = true ∧ State.reset.out.getLsbD 5 = false ∧
  ∀ s : State, Started s → ∃ t, Steps 3 s t ∧ AuxConsistent t ∧ t.now = 0

/-- What the spec derives in R141 of the power lines. -/
def Obligations.PowerLinesStayOrdered : Prop :=
  ∀ s : State, Visited s → s.tmr ≠ 0 →
    BusConsistent s ∧ PowerOrdered s ∧
    (1610 < s.now → ¬ InResetSequence s →
      s.out.getLsbD 0 = true ∧ s.out.getLsbD 1 = true ∧ s.out.getLsbD 3 = true)

/-- What the spec derives in R173 and R182: with the reference image the fault is never raised, and
the unused addresses are never reached. -/
def Obligations.ReferenceImageNeverFaults : Prop :=
  ∀ s : State, Visited s → s.fault = false ∧ s.cs.toNat ≤ 0x42

/-- What the spec derives in R173: at most 18 exec steps at one `now`, the delay that ends them
included, and then model time advances. -/
def Obligations.ModelTimeAlwaysAdvances : Prop :=
  ∀ s : State, RefInv s → s.env.rstN = true →
    ∃ k t u, k ≤ 18 ∧ Steps k s t ∧ t.tmr ≠ 0 ∧ t.now = s.now ∧
      step t = .next u ∧ u.now = s.now + 1

/-- R208 with log 9: a step store that passes the check never runs for ever at one `now`. -/
def Obligations.ZenoFreeStoreNeverHangs : Prop :=
  ∀ s : State, zenoFree s.rom = true → ExecEnabled s →
    ∃ k t, k ≤ 128 ∧ Steps k s t ∧ t.now = s.now ∧ (t.tmr ≠ 0 ∨ t.fault = true)

/-- The reference image passes that check, with 18 steps where the spec says 18 (R173), and a `JMP` to
itself does not. -/
def Obligations.ReferenceImageIsZenoFree : Prop :=
  zenoFree [] = true ∧
  (∀ k, k ≤ 0x42 → settles [] 18 (BitVec.ofNat 7 k) = true) ∧ settles [] 17 0x42 = false ∧
  zenoFree (Memory.writeWord [] 0x10 0x7010) = false

/-! The routines, run from the reference image. -/

/-- The actions of R131 with their times, in every environment. The rest the spec derives: the state
they end in (R133), and that no step of a run goes back below the loop (R131 from the image of R171).
That the image and the behaviour `State.startup` agree is what R6 asks (log 14). -/
def Obligations.StartupSequenceRuns : Prop :=
  (∀ s : State, Started s →
    ∃ t, Steps 2120 s t ∧ t.now = 2110 ∧ t.cs = 0x0A ∧ t.tmr = 0 ∧ t.fault = false ∧
      t.out = 0b101111#6 ∧ t.flag = 0b1000#4 ∧
      t.tr = [⟨0, .wr .haltReq true⟩, ⟨0, .dir true⟩, ⟨0, .wr .ledAux true⟩,
        ⟨1500, .wr .dcOk true⟩, ⟨1510, .wr .pwrOk true⟩, ⟨1610, .wr .ledRun true⟩] ∧
      t = { s.startup with cs := 0x0A }) ∧
  (∀ s t : State, Visited s → 0x0A ≤ s.cs.toNat → step s = .next t → 0x0A ≤ t.cs.toNat)

/-- R134: the reset sequence, its events with their times, in every environment and whatever the lines
were; it leaves aux-LED, `DRV` and the Held bits alone. -/
def Obligations.ResetSequenceRuns : Prop :=
  ∀ s : State, AtReference s → s.cs = 0x0D →
    ∃ t, Steps 424 s t ∧
      t = { s with
        cs := 0x21
        now := s.now + 410
        out := t.out
        tr := s.tr ++ [⟨s.now, .wr .haltReq true⟩, ⟨s.now, .wr .ledHalt false⟩,
          ⟨s.now + 100, .wr .ledRun false⟩, ⟨s.now + 100, .wr .pwrOk false⟩,
          ⟨s.now + 200, .wr .dcOk false⟩, ⟨s.now + 300, .wr .dcOk true⟩,
          ⟨s.now + 310, .wr .pwrOk true⟩, ⟨s.now + 410, .wr .ledRun true⟩] } ∧
      t.out.getLsbD 0 = true ∧ t.out.getLsbD 1 = true ∧ t.out.getLsbD 2 = true ∧
      t.out.getLsbD 3 = true ∧ t.out.getLsbD 4 = false ∧ t.out.getLsbD 5 = s.out.getLsbD 5

/-- R138: the halt/resume toggle, decided by the latch, at one `now`. -/
def Obligations.HaltToggleRuns : Prop :=
  ∀ s : State, AtReference s → s.cs = 0x24 →
    ∃ t, Steps 4 s t ∧
      t = { s with
        cs := 0x31
        out := t.out
        tr := s.tr ++ [⟨s.now, .wr .haltReq (!s.out.getLsbD 2)⟩,
          ⟨s.now, .wr .ledHalt (s.out.getLsbD 2)⟩] } ∧
      t.out.getLsbD 2 = !s.out.getLsbD 2 ∧ t.out.getLsbD 4 = s.out.getLsbD 2 ∧
      ∀ k, k ≠ 2 → k ≠ 4 → t.out.getLsbD k = s.out.getLsbD k

/-- R150: the auxiliary clock toggle, decided by the stored mode, direction first and LED second, at
one `now`. -/
def Obligations.AuxToggleRuns : Prop :=
  ∀ s : State, AtReference s → s.cs = 0x34 →
    ∃ t, Steps 4 s t ∧
      t = { s with
        cs := 0x41
        out := t.out
        flag := t.flag
        tr := s.tr ++ [⟨s.now, .dir (!s.drv)⟩, ⟨s.now, .wr .ledAux (!s.drv)⟩] } ∧
      t.drv = !s.drv ∧ t.out.getLsbD 5 = !s.drv ∧
      (∀ k, k ≠ 3 → t.flag.getLsbD k = s.flag.getLsbD k) ∧
      ∀ k, k ≠ 5 → t.out.getLsbD k = s.out.getLsbD k

/-- R111, R112: a poll of a button that is `Idle`: released, nothing; pressed, the edge, then at once
the button's handler, then the next poll. -/
def Obligations.IdlePollTakesThePressEdge : Prop :=
  ∀ (b : Button) (s : State), AtReference s → s.cs = addrPoll b → s.held b = false →
    (s.env.btn b s.now = true → Steps 2 s { s with cs := addrNext b }) ∧
    (s.env.btn b s.now = false →
      ∃ t n, Steps 3 s t ∧
        t = { s with cs := addrHandler b, flag := t.flag, tr := s.tr ++ [⟨s.now, .edge b⟩] } ∧
        t.held b = true ∧ (∀ f, f ≠ heldFlag b → t.readFlag f = s.readFlag f) ∧
        Steps n t { t.handler b with cs := addrNext b })

/-- R113, R115, R116: a poll of a button that is `Held`: pressed, nothing; released, up to two more
samples 5 ms apart, any pressed one of which ends the poll, and after three released ones the button
is `Idle`. -/
def Obligations.HeldPollConfirmsTheRelease : Prop :=
  ∀ (b : Button) (s : State), AtReference s → s.cs = addrPoll b → s.held b = true →
    (s.env.btn b s.now = false → Steps 2 s { s with cs := addrNext b }) ∧
    (s.env.btn b s.now = true → s.env.btn b (s.now + 5) = false →
      Steps 9 s { s with cs := addrNext b, now := s.now + 5 }) ∧
    (s.env.btn b s.now = true → s.env.btn b (s.now + 5) = true →
      s.env.btn b (s.now + 10) = false →
      Steps 16 s { s with cs := addrNext b, now := s.now + 10 }) ∧
    (s.env.btn b s.now = true → s.env.btn b (s.now + 5) = true →
      s.env.btn b (s.now + 10) = true →
      ∃ t, Steps 17 s t ∧ t = { s with cs := addrNext b, now := s.now + 10, flag := t.flag } ∧
        t.held b = false ∧ ∀ f, f ≠ heldFlag b → t.readFlag f = s.readFlag f)

/-- Running the image from the poll of a button is the poll as behaviour, R118's summary: the agreement
of image and rules that R6 asks (log 14). -/
def Obligations.PollRefinesItsBehaviour : Prop :=
  ∀ (b : Button) (s : State), AtReference s → s.cs = addrPoll b →
    ∃ n, Steps n s { s.poll b with cs := addrNext b }

/-- Running the image from the top of the loop is one iteration as behaviour, as R161 says it: polls and
handlers interleaved in the order reset, halt, aux, then the inter-cycle delay. It is the agreement of
image and rules that R6 asks (log 14). -/
def Obligations.LoopRefinesItsIteration : Prop :=
  ∀ s : State, AtReference s → s.cs = 0x0A →
    ∃ n, Steps n s { s.iteration with cs := 0x0A }

/-- The bounds of R165: an iteration takes 10 to 440 ms, and at most 40 without a reset edge. -/
def Obligations.IterationTakesTenToFourHundredFortyMs : Prop :=
  ∀ s : State,
    s.now + 10 ≤ s.iteration.now ∧ s.iteration.now ≤ s.now + 440 ∧
    ((s.held .reset = true ∨ s.env.btn .reset s.now = true) → s.iteration.now ≤ s.now + 40)

/-- The alternation of R139 and R151: the `n`-th toggle in a row, counted from any state. -/
def Obligations.TogglesAlternate : Prop :=
  ∀ (n : Nat) (s : State), BusConsistent s → AuxConsistent s →
    (State.haltToggle^[n] s).out.getLsbD 2 = (s.out.getLsbD 2 ^^ (n % 2 == 1)) ∧
    BusConsistent (State.haltToggle^[n] s) ∧
    (State.auxToggle^[n] s).drv = (s.drv ^^ (n % 2 == 1)) ∧
    AuxConsistent (State.auxToggle^[n] s)

/-- R119 as a property of the rules: in a run, a press edge is recorded only when the button was
`Idle` and its line reads pressed, and the button becomes `Idle` again only after three released
samples 5 ms apart. -/
def Obligations.EdgesAreSeparatedByConfirmedReleases : Prop :=
  ∀ (s t : State) (b : Button), Visited s → step s = .next t →
    (t.tr = s.tr ++ [⟨s.now, .edge b⟩] →
      s.held b = false ∧ t.held b = true ∧ s.env.btn b s.now = false) ∧
    (s.held b = false → t.held b = true → t.tr = s.tr ++ [⟨s.now, .edge b⟩]) ∧
    (s.held b = true → t.held b = false →
      10 ≤ s.now ∧ s.env.btn b (s.now - 10) = true ∧ s.env.btn b (s.now - 5) = true ∧
      s.env.btn b s.now = true)
end

