-- ==== Sys2Proof/Laws/Bits.lean ====
section
/-! SUPPORT. What a single-bit update does to each bit. -/

namespace Sys2Proof.Laws

open Sys2Proof.Machine

/-- A single-bit update changes that bit and no other. -/
theorem getLsbD_setBit {n : Nat} (v : BitVec n) (i j : Nat) (b : Bool) :
    (setBit v i b).getLsbD j = if j = i ∧ j < n then b else v.getLsbD j := by
  unfold setBit
  by_cases hj : j < n
  · by_cases hij : j = i
    · subst hij; cases b <;> simp [hj]
    · cases b <;> simp [hj, hij]
  · have hn : n ≤ j := Nat.le_of_not_lt hj
    simp [hj, BitVec.getLsbD_of_ge _ _ hn]

/-- The updated bit, inside the width. -/
theorem getLsbD_setBit_self {n : Nat} (v : BitVec n) {i : Nat} (h : i < n) (b : Bool) :
    (setBit v i b).getLsbD i = b := by
  rw [getLsbD_setBit, if_pos ⟨rfl, h⟩]

/-- Every other bit. -/
theorem getLsbD_setBit_ne {n : Nat} (v : BitVec n) {i j : Nat} (h : j ≠ i) (b : Bool) :
    (setBit v i b).getLsbD j = v.getLsbD j := by
  rw [getLsbD_setBit, if_neg fun hc => h hc.1]

end Sys2Proof.Laws
end

