-- ==== Sys2Proof/Laws/Memory.lean ====
section
/-! SUPPORT. The step store: every operation keeps the canonical form; a read after a write. -/

namespace Sys2Proof.Laws

open Sys2Proof.Machine

theorem wfFrom_cons {lo k : Nat} {v : Byte} {rest : Memory} :
    Memory.wfFrom lo ((k, v) :: rest) = true ↔
      lo ≤ k ∧ k < 256 ∧ v ≠ imageByte (BitVec.ofNat 8 k) ∧ Memory.wfFrom (k + 1) rest = true := by
  simp [Memory.wfFrom, Bool.and_eq_true, and_assoc]

/-- A canonical list stays canonical from any lower address. -/
theorem wfFrom_le {m : Memory} {lo lo' : Nat} (hle : lo' ≤ lo) (h : Memory.wfFrom lo m = true) :
    Memory.wfFrom lo' m = true := by
  cases m with
  | nil => rfl
  | cons p rest =>
    obtain ⟨k, v⟩ := p
    rw [wfFrom_cons] at h ⊢
    exact ⟨by omega, h.2⟩

/-- Nothing is listed below the least address. -/
theorem find_of_lt {m : Memory} {lo a : Nat} (h : Memory.wfFrom lo m = true) (ha : a < lo) :
    Memory.find m a = none := by
  induction m generalizing lo with
  | nil => rfl
  | cons p rest ih =>
    obtain ⟨k, v⟩ := p
    rw [wfFrom_cons] at h
    have hk : k ≠ a := by omega
    simp only [Memory.find, hk, if_false]
    exact ih h.2.2.2 (by omega)

/-- Taking an address out keeps the canonical form. -/
theorem drop_wfFrom {m : Memory} {lo : Nat} (a : Nat) (h : Memory.wfFrom lo m = true) :
    Memory.wfFrom lo (Memory.drop m a) = true := by
  induction m generalizing lo with
  | nil => rfl
  | cons p rest ih =>
    obtain ⟨k, v⟩ := p
    rw [wfFrom_cons] at h
    unfold Memory.drop
    split
    · exact wfFrom_le (by omega) h.2.2.2
    · rw [wfFrom_cons]
      exact ⟨h.1, h.2.1, h.2.2.1, ih h.2.2.2⟩

/-- Listing a byte that differs from the image keeps the canonical form. -/
theorem put_wfFrom {m : Memory} {lo a : Nat} {b : Byte} (h : Memory.wfFrom lo m = true)
    (hlo : lo ≤ a) (ha : a < 256) (hb : b ≠ imageByte (BitVec.ofNat 8 a)) :
    Memory.wfFrom lo (Memory.put m a b) = true := by
  induction m generalizing lo with
  | nil => simp [Memory.put, Memory.wfFrom, hlo, ha, hb]
  | cons p rest ih =>
    obtain ⟨k, v⟩ := p
    have h' := wfFrom_cons.mp h
    unfold Memory.put
    split
    · rw [wfFrom_cons, wfFrom_cons]
      exact ⟨hlo, ha, hb, by omega, h'.2⟩
    · split
      · next _ hk =>
        subst hk
        rw [wfFrom_cons]
        exact ⟨hlo, ha, hb, h'.2.2.2⟩
      · rw [wfFrom_cons]
        exact ⟨h'.1, h'.2.1, h'.2.2.1, ih h'.2.2.2 (by omega)⟩

/-- Writing a byte keeps the canonical form. -/
theorem writeByte_wf {m : Memory} (h : m.wf = true) (a : BitVec 8) (b : Byte) :
    (m.writeByte a b).wf = true := by
  unfold Memory.writeByte Memory.wf
  split
  · exact drop_wfFrom _ h
  · refine put_wfFrom h (Nat.zero_le _) a.isLt ?_
    simpa using ‹_›

/-- Writing a word keeps the canonical form. -/
theorem writeWord_wf {m : Memory} (h : m.wf = true) (a : StepAddr) (w : Word) :
    (m.writeWord a w).wf = true :=
  writeByte_wf (writeByte_wf h _ _) _ _

/-- What is listed after an address is taken out. -/
theorem find_drop {m : Memory} {lo : Nat} (h : Memory.wfFrom lo m = true) (a c : Nat) :
    Memory.find (Memory.drop m a) c = if c = a then none else Memory.find m c := by
  induction m generalizing lo with
  | nil => simp [Memory.drop, Memory.find]
  | cons p rest ih =>
    obtain ⟨k, v⟩ := p
    have h' := wfFrom_cons.mp h
    unfold Memory.drop
    split
    · next hk =>
      subst hk
      by_cases hc : c = k
      · subst hc; simp [find_of_lt h'.2.2.2 (Nat.lt_succ_self _)]
      · simp [hc, Memory.find, Ne.symm hc]
    · next hk =>
      simp only [Memory.find, ih h'.2.2.2]
      by_cases hc : k = c
      · subst hc; simp [hk]
      · simp [hc]

/-- What is listed after a byte is listed. -/
theorem find_put (m : Memory) (a : Nat) (b : Byte) (c : Nat) :
    Memory.find (Memory.put m a b) c = if c = a then some b else Memory.find m c := by
  induction m with
  | nil => simp [Memory.put, Memory.find, eq_comm]
  | cons p rest ih =>
    obtain ⟨k, v⟩ := p
    unfold Memory.put
    split
    · simp [Memory.find, eq_comm]
    · split
      · next _ hk =>
        subst hk
        by_cases hc : c = k
        · subst hc; simp [Memory.find]
        · simp [Memory.find, hc, Ne.symm hc]
      · next hk =>
        simp only [Memory.find, ih]
        by_cases hc : k = c
        · subst hc; simp [hk]
        · simp [hc]

/-- A read after a write of one byte. -/
theorem readByte_writeByte {m : Memory} (h : m.wf = true) (a c : BitVec 8) (b : Byte) :
    (m.writeByte a b).readByte c = if c = a then b else m.readByte c := by
  have hn : c.toNat = a.toNat ↔ c = a := BitVec.toNat_inj
  unfold Memory.writeByte Memory.readByte
  split
  · next hb =>
    rw [find_drop h]
    by_cases hc : c = a
    · subst hc; simp [hb]
    · simp [hc, hn]
  · rw [find_put]
    by_cases hc : c = a
    · subst hc; simp
    · simp [hc, hn]

end Sys2Proof.Laws
end

