-- ==== Sys2Proof/Laws/State.lean ====
section
/-! SUPPORT. One lemma per field per update of the state, so that no later proof unfolds an update. -/

namespace Sys2Proof.Laws

open Sys2Proof.Machine

/-! `record`: an event at the end of the trace. -/

@[simp] theorem record_cs (e : Event) (s : State) : (s.record e).cs = s.cs := rfl
@[simp] theorem record_tmr (e : Event) (s : State) : (s.record e).tmr = s.tmr := rfl
@[simp] theorem record_out (e : Event) (s : State) : (s.record e).out = s.out := rfl
@[simp] theorem record_flag (e : Event) (s : State) : (s.record e).flag = s.flag := rfl
@[simp] theorem record_fault (e : Event) (s : State) : (s.record e).fault = s.fault := rfl
@[simp] theorem record_now (e : Event) (s : State) : (s.record e).now = s.now := rfl
@[simp] theorem record_tr (e : Event) (s : State) : (s.record e).tr = s.tr ++ [⟨s.now, e⟩] := rfl
@[simp] theorem record_rom (e : Event) (s : State) : (s.record e).rom = s.rom := rfl
@[simp] theorem record_env (e : Event) (s : State) : (s.record e).env = s.env := rfl

/-! `goto`: the control transfer. -/

@[simp] theorem goto_cs (a : StepAddr) (s : State) : (s.goto a).cs = a := rfl
@[simp] theorem goto_tmr (a : StepAddr) (s : State) : (s.goto a).tmr = s.tmr := rfl
@[simp] theorem goto_out (a : StepAddr) (s : State) : (s.goto a).out = s.out := rfl
@[simp] theorem goto_flag (a : StepAddr) (s : State) : (s.goto a).flag = s.flag := rfl
@[simp] theorem goto_fault (a : StepAddr) (s : State) : (s.goto a).fault = s.fault := rfl
@[simp] theorem goto_now (a : StepAddr) (s : State) : (s.goto a).now = s.now := rfl
@[simp] theorem goto_tr (a : StepAddr) (s : State) : (s.goto a).tr = s.tr := rfl
@[simp] theorem goto_rom (a : StepAddr) (s : State) : (s.goto a).rom = s.rom := rfl
@[simp] theorem goto_env (a : StepAddr) (s : State) : (s.goto a).env = s.env := rfl

/-! `advance`: the next address. -/

@[simp] theorem advance_cs (s : State) : (s.advance).cs = s.cs + 1 := rfl
@[simp] theorem advance_tmr (s : State) : (s.advance).tmr = s.tmr := rfl
@[simp] theorem advance_out (s : State) : (s.advance).out = s.out := rfl
@[simp] theorem advance_flag (s : State) : (s.advance).flag = s.flag := rfl
@[simp] theorem advance_fault (s : State) : (s.advance).fault = s.fault := rfl
@[simp] theorem advance_now (s : State) : (s.advance).now = s.now := rfl
@[simp] theorem advance_tr (s : State) : (s.advance).tr = s.tr := rfl
@[simp] theorem advance_rom (s : State) : (s.advance).rom = s.rom := rfl
@[simp] theorem advance_env (s : State) : (s.advance).env = s.env := rfl

/-! `branch`: the conditional transfer. -/

@[simp] theorem branch_cs (c : Bool) (a : StepAddr) (s : State) : (s.branch c a).cs = if c then a else s.cs + 1 := rfl
@[simp] theorem branch_tmr (c : Bool) (a : StepAddr) (s : State) : (s.branch c a).tmr = s.tmr := rfl
@[simp] theorem branch_out (c : Bool) (a : StepAddr) (s : State) : (s.branch c a).out = s.out := rfl
@[simp] theorem branch_flag (c : Bool) (a : StepAddr) (s : State) : (s.branch c a).flag = s.flag := rfl
@[simp] theorem branch_fault (c : Bool) (a : StepAddr) (s : State) : (s.branch c a).fault = s.fault := rfl
@[simp] theorem branch_now (c : Bool) (a : StepAddr) (s : State) : (s.branch c a).now = s.now := rfl
@[simp] theorem branch_tr (c : Bool) (a : StepAddr) (s : State) : (s.branch c a).tr = s.tr := rfl
@[simp] theorem branch_rom (c : Bool) (a : StepAddr) (s : State) : (s.branch c a).rom = s.rom := rfl
@[simp] theorem branch_env (c : Bool) (a : StepAddr) (s : State) : (s.branch c a).env = s.env := rfl

/-! `loadTimer`: the delay counter. -/

@[simp] theorem loadTimer_cs (n : Millis) (s : State) : (s.loadTimer n).cs = s.cs := rfl
@[simp] theorem loadTimer_tmr (n : Millis) (s : State) : (s.loadTimer n).tmr = n := rfl
@[simp] theorem loadTimer_out (n : Millis) (s : State) : (s.loadTimer n).out = s.out := rfl
@[simp] theorem loadTimer_flag (n : Millis) (s : State) : (s.loadTimer n).flag = s.flag := rfl
@[simp] theorem loadTimer_fault (n : Millis) (s : State) : (s.loadTimer n).fault = s.fault := rfl
@[simp] theorem loadTimer_now (n : Millis) (s : State) : (s.loadTimer n).now = s.now := rfl
@[simp] theorem loadTimer_tr (n : Millis) (s : State) : (s.loadTimer n).tr = s.tr := rfl
@[simp] theorem loadTimer_rom (n : Millis) (s : State) : (s.loadTimer n).rom = s.rom := rfl
@[simp] theorem loadTimer_env (n : Millis) (s : State) : (s.loadTimer n).env = s.env := rfl

/-! `tick`: the tick step. -/

@[simp] theorem tick_cs (s : State) : (s.tick).cs = s.cs := rfl
@[simp] theorem tick_tmr (s : State) : (s.tick).tmr = s.tmr - 1 := rfl
@[simp] theorem tick_out (s : State) : (s.tick).out = s.out := rfl
@[simp] theorem tick_flag (s : State) : (s.tick).flag = s.flag := rfl
@[simp] theorem tick_fault (s : State) : (s.tick).fault = s.fault := rfl
@[simp] theorem tick_now (s : State) : (s.tick).now = s.now + 1 := rfl
@[simp] theorem tick_tr (s : State) : (s.tick).tr = s.tr := rfl
@[simp] theorem tick_rom (s : State) : (s.tick).rom = s.rom := rfl
@[simp] theorem tick_env (s : State) : (s.tick).env = s.env := rfl

/-! `tickFaulted`: the tick step of the faulted state. -/

@[simp] theorem tickFaulted_cs (s : State) : (s.tickFaulted).cs = s.cs := rfl
@[simp] theorem tickFaulted_tmr (s : State) : (s.tickFaulted).tmr = s.tmr := rfl
@[simp] theorem tickFaulted_out (s : State) : (s.tickFaulted).out = s.out := rfl
@[simp] theorem tickFaulted_flag (s : State) : (s.tickFaulted).flag = s.flag := rfl
@[simp] theorem tickFaulted_fault (s : State) : (s.tickFaulted).fault = s.fault := rfl
@[simp] theorem tickFaulted_now (s : State) : (s.tickFaulted).now = s.now + 1 := rfl
@[simp] theorem tickFaulted_tr (s : State) : (s.tickFaulted).tr = s.tr := rfl
@[simp] theorem tickFaulted_rom (s : State) : (s.tickFaulted).rom = s.rom := rfl
@[simp] theorem tickFaulted_env (s : State) : (s.tickFaulted).env = s.env := rfl

/-! `illegalStep`: taking the fault. -/

@[simp] theorem illegalStep_cs (s : State) : (s.illegalStep).cs = s.cs := rfl
@[simp] theorem illegalStep_tmr (s : State) : (s.illegalStep).tmr = s.tmr := rfl
@[simp] theorem illegalStep_out (s : State) : (s.illegalStep).out = s.out := rfl
@[simp] theorem illegalStep_flag (s : State) : (s.illegalStep).flag = s.flag := rfl
@[simp] theorem illegalStep_fault (s : State) : (s.illegalStep).fault = true := rfl
@[simp] theorem illegalStep_now (s : State) : (s.illegalStep).now = s.now := rfl
@[simp] theorem illegalStep_tr (s : State) : (s.illegalStep).tr = s.tr ++ [⟨s.now, .fault s.cs⟩] := rfl
@[simp] theorem illegalStep_rom (s : State) : (s.illegalStep).rom = s.rom := rfl
@[simp] theorem illegalStep_env (s : State) : (s.illegalStep).env = s.env := rfl

/-! `hardReset`: hardware reset. -/

@[simp] theorem hardReset_cs (s : State) : (s.hardReset).cs = 0 := rfl
@[simp] theorem hardReset_tmr (s : State) : (s.hardReset).tmr = 0 := rfl
@[simp] theorem hardReset_out (s : State) : (s.hardReset).out = 0 := rfl
@[simp] theorem hardReset_flag (s : State) : (s.hardReset).flag = 0b1000#4 := rfl
@[simp] theorem hardReset_fault (s : State) : (s.hardReset).fault = false := rfl
@[simp] theorem hardReset_now (s : State) : (s.hardReset).now = 0 := rfl
@[simp] theorem hardReset_tr (s : State) : (s.hardReset).tr = [] := rfl
@[simp] theorem hardReset_rom (s : State) : (s.hardReset).rom = s.rom := rfl
@[simp] theorem hardReset_env (s : State) : (s.hardReset).env = s.env.afterReset := rfl

/-! `sleep`: a whole delay. -/

@[simp] theorem sleep_cs (n : Nat) (s : State) : (s.sleep n).cs = s.cs := rfl
@[simp] theorem sleep_tmr (n : Nat) (s : State) : (s.sleep n).tmr = s.tmr := rfl
@[simp] theorem sleep_out (n : Nat) (s : State) : (s.sleep n).out = s.out := rfl
@[simp] theorem sleep_flag (n : Nat) (s : State) : (s.sleep n).flag = s.flag := rfl
@[simp] theorem sleep_fault (n : Nat) (s : State) : (s.sleep n).fault = s.fault := rfl
@[simp] theorem sleep_now (n : Nat) (s : State) : (s.sleep n).now = s.now + n := rfl
@[simp] theorem sleep_tr (n : Nat) (s : State) : (s.sleep n).tr = s.tr := rfl
@[simp] theorem sleep_rom (n : Nat) (s : State) : (s.sleep n).rom = s.rom := rfl
@[simp] theorem sleep_env (n : Nat) (s : State) : (s.sleep n).env = s.env := rfl

/-! `setDir`: the clock line's direction. -/

@[simp] theorem setDir_cs (d : Bool) (s : State) : (s.setDir d).cs = s.cs := rfl
@[simp] theorem setDir_tmr (d : Bool) (s : State) : (s.setDir d).tmr = s.tmr := rfl
@[simp] theorem setDir_out (d : Bool) (s : State) : (s.setDir d).out = s.out := rfl
@[simp] theorem setDir_flag (d : Bool) (s : State) : (s.setDir d).flag = setBit s.flag 3 d := rfl
@[simp] theorem setDir_fault (d : Bool) (s : State) : (s.setDir d).fault = s.fault := rfl
@[simp] theorem setDir_now (d : Bool) (s : State) : (s.setDir d).now = s.now := rfl
@[simp] theorem setDir_tr (d : Bool) (s : State) : (s.setDir d).tr = s.tr ++ [⟨s.now, .dir d⟩] := rfl
@[simp] theorem setDir_rom (d : Bool) (s : State) : (s.setDir d).rom = s.rom := rfl
@[simp] theorem setDir_env (d : Bool) (s : State) : (s.setDir d).env = s.env := rfl

/-! `driveRst`: the level on `rst_n`, released and asserted. -/

@[simp] theorem driveRst_true_cs (s : State) : (s.driveRst true).cs = s.cs := rfl
@[simp] theorem driveRst_true_tmr (s : State) : (s.driveRst true).tmr = s.tmr := rfl
@[simp] theorem driveRst_true_out (s : State) : (s.driveRst true).out = s.out := rfl
@[simp] theorem driveRst_true_flag (s : State) : (s.driveRst true).flag = s.flag := rfl
@[simp] theorem driveRst_true_fault (s : State) : (s.driveRst true).fault = s.fault := rfl
@[simp] theorem driveRst_true_now (s : State) : (s.driveRst true).now = s.now := rfl
@[simp] theorem driveRst_true_tr (s : State) : (s.driveRst true).tr = s.tr := rfl
@[simp] theorem driveRst_true_rom (s : State) : (s.driveRst true).rom = s.rom := rfl
@[simp] theorem driveRst_true_env (s : State) :
    (s.driveRst true).env = { s.env with rstN := true } := rfl
@[simp] theorem driveRst_false_cs (s : State) : (s.driveRst false).cs = 0 := rfl
@[simp] theorem driveRst_false_tmr (s : State) : (s.driveRst false).tmr = 0 := rfl
@[simp] theorem driveRst_false_out (s : State) : (s.driveRst false).out = 0 := rfl
@[simp] theorem driveRst_false_flag (s : State) : (s.driveRst false).flag = 0b1000#4 := rfl
@[simp] theorem driveRst_false_fault (s : State) : (s.driveRst false).fault = false := rfl
@[simp] theorem driveRst_false_now (s : State) : (s.driveRst false).now = 0 := rfl
@[simp] theorem driveRst_false_tr (s : State) : (s.driveRst false).tr = [] := rfl
@[simp] theorem driveRst_false_rom (s : State) : (s.driveRst false).rom = s.rom := rfl
@[simp] theorem driveRst_false_env (s : State) :
    (s.driveRst false).env = { s.env.afterReset with rstN := false } := rfl

/-! `drive`: a known input level. -/

@[simp] theorem drive_cs (sp : Span) (s : State) : (s.drive sp).cs = s.cs := rfl
@[simp] theorem drive_tmr (sp : Span) (s : State) : (s.drive sp).tmr = s.tmr := rfl
@[simp] theorem drive_out (sp : Span) (s : State) : (s.drive sp).out = s.out := rfl
@[simp] theorem drive_flag (sp : Span) (s : State) : (s.drive sp).flag = s.flag := rfl
@[simp] theorem drive_fault (sp : Span) (s : State) : (s.drive sp).fault = s.fault := rfl
@[simp] theorem drive_now (sp : Span) (s : State) : (s.drive sp).now = s.now := rfl
@[simp] theorem drive_tr (sp : Span) (s : State) : (s.drive sp).tr = s.tr := rfl
@[simp] theorem drive_rom (sp : Span) (s : State) : (s.drive sp).rom = s.rom := rfl
@[simp] theorem drive_env (sp : Span) (s : State) : (s.drive sp).env = { s.env with script := sp :: s.env.script } := rfl

/-! `noteRead`: a read changes nothing but the count of draws. -/

@[simp] theorem noteRead_cs (l : Line) (s : State) : (s.noteRead l).cs = s.cs := by
  unfold State.noteRead; split <;> first | rfl | (split <;> rfl)
@[simp] theorem noteRead_tmr (l : Line) (s : State) : (s.noteRead l).tmr = s.tmr := by
  unfold State.noteRead; split <;> first | rfl | (split <;> rfl)
@[simp] theorem noteRead_out (l : Line) (s : State) : (s.noteRead l).out = s.out := by
  unfold State.noteRead; split <;> first | rfl | (split <;> rfl)
@[simp] theorem noteRead_flag (l : Line) (s : State) : (s.noteRead l).flag = s.flag := by
  unfold State.noteRead; split <;> first | rfl | (split <;> rfl)
@[simp] theorem noteRead_fault (l : Line) (s : State) : (s.noteRead l).fault = s.fault := by
  unfold State.noteRead; split <;> first | rfl | (split <;> rfl)
@[simp] theorem noteRead_now (l : Line) (s : State) : (s.noteRead l).now = s.now := by
  unfold State.noteRead; split <;> first | rfl | (split <;> rfl)
@[simp] theorem noteRead_tr (l : Line) (s : State) : (s.noteRead l).tr = s.tr := by
  unfold State.noteRead; split <;> first | rfl | (split <;> rfl)
@[simp] theorem noteRead_rom (l : Line) (s : State) : (s.noteRead l).rom = s.rom := by
  unfold State.noteRead; split <;> first | rfl | (split <;> rfl)

/-! `lineWrite`: a write to an output line. -/

@[simp] theorem lineWrite_cs (l : Line) (v : Bool) (s : State) : (s.lineWrite l v).cs = s.cs := by
  unfold State.lineWrite; split <;> rfl
@[simp] theorem lineWrite_tmr (l : Line) (v : Bool) (s : State) : (s.lineWrite l v).tmr = s.tmr := by
  unfold State.lineWrite; split <;> rfl
@[simp] theorem lineWrite_flag (l : Line) (v : Bool) (s : State) : (s.lineWrite l v).flag = s.flag := by
  unfold State.lineWrite; split <;> rfl
@[simp] theorem lineWrite_fault (l : Line) (v : Bool) (s : State) : (s.lineWrite l v).fault = s.fault := by
  unfold State.lineWrite; split <;> rfl
@[simp] theorem lineWrite_now (l : Line) (v : Bool) (s : State) : (s.lineWrite l v).now = s.now := by
  unfold State.lineWrite; split <;> rfl
@[simp] theorem lineWrite_rom (l : Line) (v : Bool) (s : State) : (s.lineWrite l v).rom = s.rom := by
  unfold State.lineWrite; split <;> rfl
@[simp] theorem lineWrite_env (l : Line) (v : Bool) (s : State) : (s.lineWrite l v).env = s.env := by
  unfold State.lineWrite; split <;> rfl

/-! `writeHeld`: a write to a Held bit. -/

@[simp] theorem writeHeld_cs (b : Button) (v : Bool) (s : State) : (s.writeHeld b v).cs = s.cs := by
  unfold State.writeHeld; dsimp only; split <;> rfl
@[simp] theorem writeHeld_tmr (b : Button) (v : Bool) (s : State) : (s.writeHeld b v).tmr = s.tmr := by
  unfold State.writeHeld; dsimp only; split <;> rfl
@[simp] theorem writeHeld_out (b : Button) (v : Bool) (s : State) : (s.writeHeld b v).out = s.out := by
  unfold State.writeHeld; dsimp only; split <;> rfl
@[simp] theorem writeHeld_fault (b : Button) (v : Bool) (s : State) : (s.writeHeld b v).fault = s.fault := by
  unfold State.writeHeld; dsimp only; split <;> rfl
@[simp] theorem writeHeld_now (b : Button) (v : Bool) (s : State) : (s.writeHeld b v).now = s.now := by
  unfold State.writeHeld; dsimp only; split <;> rfl
@[simp] theorem writeHeld_rom (b : Button) (v : Bool) (s : State) : (s.writeHeld b v).rom = s.rom := by
  unfold State.writeHeld; dsimp only; split <;> rfl
@[simp] theorem writeHeld_env (b : Button) (v : Bool) (s : State) : (s.writeHeld b v).env = s.env := by
  unfold State.writeHeld; dsimp only; split <;> rfl

@[simp] theorem writeHeld_flag (b : Button) (v : Bool) (s : State) :
    (s.writeHeld b v).flag = setBit s.flag (heldFlag b).bit v := by
  unfold State.writeHeld; dsimp only; split <;> rfl

theorem writeHeld_tr (b : Button) (v : Bool) (s : State) :
    (s.writeHeld b v).tr = if v && !s.held b then s.tr ++ [⟨s.now, .edge b⟩] else s.tr := by
  unfold State.writeHeld; dsimp only; split <;> rfl

@[simp] theorem afterReset_rstN (e : Env) : e.afterReset.rstN = e.rstN := rfl
@[simp] theorem afterReset_epoch (e : Env) : e.afterReset.epoch = e.epoch + 1 := rfl
@[simp] theorem afterReset_script (e : Env) : e.afterReset.script = [] := rfl
@[simp] theorem afterReset_draws (e : Env) : e.afterReset.draws = e.draws := rfl

end Sys2Proof.Laws
end

