-- ==== Sys2Proof/Laws/Ops.lean ====
section
/-! SUPPORT. One lemma per shared operation that says everything it does. -/

namespace Sys2Proof.Laws

open Sys2Proof.Machine

/-- An output line's latch bit is its id less 3 (R24). -/
theorem kind_of_isOutput {l : Line} (h : l.isOutput = true) :
    l.kind = .output (l.id.toNat - 3) := by
  cases l <;> first | rfl | simp [Line.isOutput] at h

/-- The output lines are the ids 3 to 8 (R22, R74). -/
theorem isOutput_iff_id (l : Line) :
    l.isOutput = true ↔ 3 ≤ l.id.toNat ∧ l.id.toNat ≤ 8 := by
  cases l <;> decide

/-- The Held flags are the ids 0 to 2 (R27, R74). -/
theorem isHeld_iff_id (f : Flag) : f.isHeld = true ↔ f.id.toNat ≤ 2 := by
  cases f <;> decide

/-- The bit of a flag is its id (R27). -/
theorem flag_bit_eq_id (f : Flag) : f.bit = f.id.toNat := by
  cases f <;> rfl

/-- Writing an output line: its latch bit, one event, nothing else (R55). -/
theorem lineWrite_output {l : Line} (h : l.isOutput = true) (v : Bool) (s : State) :
    s.lineWrite l v =
      { s with out := setBit s.out (l.id.toNat - 3) v, tr := s.tr ++ [⟨s.now, .wr l v⟩] } := by
  simp only [State.lineWrite, kind_of_isOutput h]
  rfl

/-- Setting the direction: `DRV`, one event, nothing else (R56). -/
theorem setDir_eq (d : Bool) (s : State) :
    s.setDir d = { s with flag := setBit s.flag 3 d, tr := s.tr ++ [⟨s.now, .dir d⟩] } := rfl

/-- Writing a Held bit: that bit, an edge event on a change from 0 to 1, nothing else (R98). -/
theorem writeHeld_eq (b : Button) (v : Bool) (s : State) :
    s.writeHeld b v =
      { s with
        flag := setBit s.flag (heldFlag b).bit v
        tr := if v && !s.held b then s.tr ++ [⟨s.now, .edge b⟩] else s.tr } := by
  unfold State.writeHeld; dsimp only; split <;> rfl

/-- Reading a line changes the state only at the released clock line, and there only the count of
draws. -/
theorem noteRead_eq (l : Line) (s : State) :
    s.noteRead l =
      if l = .pclk ∧ s.drv = false then
        { s with env := { s.env with draws := s.env.draws + 1 } }
      else s := by
  cases l <;> cases h : s.drv <;> simp [State.noteRead, Line.kind, h]

/-- What each line reads as (R52, R53). -/
theorem lineLevel_input (b : Button) (s : State) : s.lineLevel b.line = s.env.btn b s.now := by
  cases b <;> rfl

theorem lineLevel_output {l : Line} (h : l.isOutput = true) (s : State) :
    s.lineLevel l = s.out.getLsbD (l.id.toNat - 3) := by
  simp only [State.lineLevel, kind_of_isOutput h]

theorem lineLevel_pclk (s : State) :
    s.lineLevel .pclk =
      if s.drv then s.env.wave s.now
      else (s.env.extClock s.now).getD (Config.floating s.env.draws) := rfl

/-- Taking ILLEGAL_STEP: the sticky bit and one event, nothing else (R100). -/
theorem illegalStep_eq (s : State) :
    s.illegalStep = { s with fault := true, tr := s.tr ++ [⟨s.now, .fault s.cs⟩] } := rfl

/-- Two bytes in image order decode as the word they make. -/
theorem decode_two (lo hi : Byte) (rest : List Byte) :
    decode (lo :: hi :: rest) = (decodeWord (hi ++ lo)).map (·, rest) := by
  show (match decodeWord (hi ++ lo) with
    | .ok i => Except.ok (i, rest)
    | .error r => Except.error r) = _
  cases decodeWord (hi ++ lo) <;> rfl

/-- The bytes at `CS` make the word at `CS`. -/
theorem fetch_eq_decodeWord (s : State) : s.fetch = decodeWord (s.rom.readWord s.cs) := by
  unfold State.fetch State.fetchBytes Memory.readWord
  rw [decode_two]
  cases decodeWord (s.rom.readByte (highByteAddr s.cs) ++ s.rom.readByte (lowByteAddr s.cs)) <;> rfl

end Sys2Proof.Laws
end

