-- ==== Sys2Proof/Laws/PerInstr.lean ====
section
/-! SUPPORT. Facts about every instruction as syntax, one lemma per constructor. -/

namespace Sys2Proof.Laws

/-- The mask and match of the instruction's row of spec/30_encoding.md R75. -/
def rowPattern : Instr → Word × Word
  | .wr _ _ => (0xF0FE, 0x1000)
  | .dir _ => (0xFFFE, 0x2000)
  | .dly _ => (0xF000, 0x3000)
  | .brl _ _ _ => (0xF000, 0x4000)
  | .brf _ _ _ => (0xF000, 0x5000)
  | .wrf _ _ => (0xF0FE, 0x6000)
  | .jmp _ => (0xFF80, 0x7000)

/-- The word of an instruction matches its row's pattern (R75). -/
def EncodeMatches.Statement (i : Instr) : Prop := encode i &&& (rowPattern i).1 = (rowPattern i).2

theorem EncodeMatches.wr (line : Line) (v : Bool) : EncodeMatches.Statement (.wr line v) := by
  unfold EncodeMatches.Statement; cases line <;> cases v <;> decide

theorem EncodeMatches.dir (d : Bool) : EncodeMatches.Statement (.dir d) := by
  unfold EncodeMatches.Statement; cases d <;> decide

theorem EncodeMatches.dly (n : Millis) : EncodeMatches.Statement (.dly n) := by
  show (3#4 ++ n : BitVec 16) &&& (0xF#4 ++ 0#12) = 3#4 ++ 0#12
  rw [BitVec.and_append, BitVec.and_zero]
  rfl

/-- The pattern of a format S row that looks at `op` only. -/
theorem formatS_op_pattern (op sel : BitVec 4) (arg : BitVec 8) :
    formatS op sel arg &&& ((0xF#4 ++ 0#4) ++ 0#8) = (op ++ 0#4) ++ 0#8 := by
  have h : op &&& 0xF#4 = op := BitVec.and_allOnes
  unfold formatS
  rw [BitVec.and_append, BitVec.and_append, BitVec.and_zero, BitVec.and_zero, h]

theorem EncodeMatches.brl (line : Line) (s : Bool) (tgt : StepAddr) :
    EncodeMatches.Statement (.brl line s tgt) :=
  formatS_op_pattern 4 line.id (branchArg s tgt)

theorem EncodeMatches.brf (flag : Flag) (s : Bool) (tgt : StepAddr) :
    EncodeMatches.Statement (.brf flag s tgt) :=
  formatS_op_pattern 5 flag.id (branchArg s tgt)

theorem EncodeMatches.wrf (flag : Flag) (v : Bool) : EncodeMatches.Statement (.wrf flag v) := by
  unfold EncodeMatches.Statement; cases flag <;> cases v <;> decide

theorem EncodeMatches.jmp (tgt : StepAddr) : EncodeMatches.Statement (.jmp tgt) := by
  show ((7#4 ++ 0#4) ++ (0#1 ++ tgt) : BitVec 16) &&& ((0xF#4 ++ 0xF#4) ++ (1#1 ++ 0#7)) =
    (7#4 ++ 0#4) ++ (0#1 ++ 0#7)
  rw [BitVec.and_append, BitVec.and_append, BitVec.and_append, BitVec.and_zero]
  rfl

end Sys2Proof.Laws
end

