-- ==== Sys2Proof/Laws/Step.lean ====
section
/-! SUPPORT. What a step can do, said once, and the composition of runs. -/

namespace Sys2Proof.Laws

open Sys2Proof.Machine

/-- The step of each of the cases the state selects (R90, R200). -/
theorem step_of_reset {s : State} (h : s.env.rstN = false) : step s = .next s.hardReset := by
  simp [step, h]

theorem step_of_fault {s : State} (hr : s.env.rstN = true) (hf : s.fault = true) :
    step s = .next s.tickFaulted := by
  simp [step, hr, hf]

theorem step_of_tmr {s : State} (hr : s.env.rstN = true) (hf : s.fault = false) (ht : s.tmr ≠ 0) :
    step s = .next s.tick := by
  simp only [step, hr, hf]
  simp only [ne_eq, ht, not_false_eq_true, if_true]
  rfl

theorem step_of_fetch {s : State} {i : Instr} (h : ExecEnabled s) (hi : s.fetch = .ok i) :
    step s = exec i s := by
  simp [step, h.1, h.2.1, h.2.2, hi]

theorem step_of_reserved {s : State} {r : Reserved} (h : ExecEnabled s) (hi : s.fetch = .error r) :
    step s = .next s.illegalStep := by
  simp [step, h.1, h.2.1, h.2.2, hi]

/-- Everything a step can do. -/
theorem step_cases (s : State) :
    (s.env.rstN = false ∧ step s = .next s.hardReset) ∨
    (s.env.rstN = true ∧ s.fault = true ∧ step s = .next s.tickFaulted) ∨
    (s.env.rstN = true ∧ s.fault = false ∧ s.tmr ≠ 0 ∧ step s = .next s.tick) ∨
    (ExecEnabled s ∧ ∃ r, s.fetch = .error r ∧ step s = .next s.illegalStep) ∨
    (ExecEnabled s ∧ ∃ i, s.fetch = .ok i ∧ step s = exec i s) := by
  cases hr : s.env.rstN
  · exact .inl ⟨rfl, step_of_reset hr⟩
  cases hf : s.fault
  · by_cases ht : s.tmr = 0
    · have he : ExecEnabled s := ⟨hr, hf, ht⟩
      cases hi : s.fetch with
      | error r => exact .inr (.inr (.inr (.inl ⟨he, r, rfl, step_of_reserved he hi⟩)))
      | ok i => exact .inr (.inr (.inr (.inr ⟨he, i, rfl, step_of_fetch he hi⟩)))
    · exact .inr (.inr (.inl ⟨rfl, rfl, ht, step_of_tmr hr hf ht⟩))
  · exact .inr (.inl ⟨rfl, rfl, step_of_fault hr hf⟩)

/-- A well-formed instruction never takes the fault, and what each one does is one of these. -/
theorem exec_cases (i : Instr) (s : State) :
    (∃ l v, i = .wr l v ∧ l.isOutput = true ∧ exec i s = .next (s.lineWrite l v).advance) ∨
    (∃ l v, i = .wr l v ∧ l.isOutput = false ∧ exec i s = .next s.illegalStep) ∨
    (∃ d, i = .dir d ∧ exec i s = .next (s.setDir d).advance) ∨
    (∃ n, i = .dly n ∧ exec i s = .next (s.loadTimer n).advance) ∨
    (∃ l c a, i = .brl l c a ∧
      exec i s = .next ((s.noteRead l).branch (s.lineLevel l == c) a)) ∨
    (∃ f c a, i = .brf f c a ∧ exec i s = .next (s.branch (s.readFlag f == c) a)) ∨
    (∃ b v, i = .wrf (heldFlag b) v ∧ exec i s = .next (s.writeHeld b v).advance) ∨
    (∃ v, i = .wrf .drv v ∧ exec i s = .next s.illegalStep) ∨
    (∃ a, i = .jmp a ∧ exec i s = .next (s.goto a)) := by
  cases i with
  | wr l v =>
    cases h : l.isOutput
    · exact .inr (.inl ⟨l, v, rfl, h, by simp [exec, execWr, h]⟩)
    · exact .inl ⟨l, v, rfl, h, by simp [exec, execWr, h]⟩
  | dir d => exact .inr (.inr (.inl ⟨d, rfl, rfl⟩))
  | dly n => exact .inr (.inr (.inr (.inl ⟨n, rfl, rfl⟩)))
  | brl l c a => exact .inr (.inr (.inr (.inr (.inl ⟨l, c, a, rfl, rfl⟩))))
  | brf f c a => exact .inr (.inr (.inr (.inr (.inr (.inl ⟨f, c, a, rfl, rfl⟩)))))
  | wrf f v =>
    cases f with
    | heldR => exact .inr (.inr (.inr (.inr (.inr (.inr (.inl ⟨.reset, v, rfl, rfl⟩))))))
    | heldH => exact .inr (.inr (.inr (.inr (.inr (.inr (.inl ⟨.halt, v, rfl, rfl⟩))))))
    | heldA => exact .inr (.inr (.inr (.inr (.inr (.inr (.inl ⟨.aux, v, rfl, rfl⟩))))))
    | drv => exact .inr (.inr (.inr (.inr (.inr (.inr (.inr (.inl ⟨v, rfl, rfl⟩)))))))
  | jmp a => exact .inr (.inr (.inr (.inr (.inr (.inr (.inr (.inr ⟨a, rfl, rfl⟩)))))))

/-! Runs. -/

theorem steps_zero (s : State) : Steps 0 s s := rfl

/-- A run is a first step and a run from there. -/
theorem steps_succ_iff (n : Nat) (s u : State) :
    Steps (n + 1) s u ↔ ∃ t, step s = .next t ∧ Steps n t u := by
  have hs : Sys2Proof.core.step s = Machine.step s := rfl
  simp only [Steps, Host.Core.run, hs]
  cases h : Machine.step s with
  | next t => exact ⟨fun h' => ⟨t, rfl, h'⟩, fun ⟨_, h1, h2⟩ => by cases h1; exact h2⟩
  | fault r => exact ⟨fun h' => (by cases h'), fun ⟨_, h1, _⟩ => by cases h1⟩
  | refused r => exact ⟨fun h' => (by cases h'), fun ⟨_, h1, _⟩ => by cases h1⟩

theorem steps_cons {n : Nat} {s t u : State} (h : step s = .next t) (hr : Steps n t u) :
    Steps (n + 1) s u :=
  (steps_succ_iff n s u).mpr ⟨t, h, hr⟩

/-- Runs compose. -/
theorem steps_trans {m n : Nat} {s t u : State} (h₁ : Steps m s t) (h₂ : Steps n t u) :
    Steps (m + n) s u := by
  induction m generalizing s with
  | zero => cases h₁; simpa using h₂
  | succ m ih =>
    obtain ⟨r, hs, hr⟩ := (steps_succ_iff m s t).mp h₁
    rw [Nat.succ_add]
    exact steps_cons hs (ih hr)

/-- A run ends in one state. -/
theorem steps_unique {n : Nat} {s t u : State} (h₁ : Steps n s t) (h₂ : Steps n s u) : t = u := by
  have h := h₁.symm.trans h₂
  cases h
  rfl

/-- A delay runs out: as many tick steps as `TMR` says. -/
theorem steps_ticks (n : Nat) {s : State} (hr : s.env.rstN = true) (hf : s.fault = false)
    (ht : s.tmr.toNat = n) : Steps n s { s with tmr := 0, now := s.now + n } := by
  induction n generalizing s with
  | zero =>
    have h0 : s.tmr = 0 := BitVec.eq_of_toNat_eq (by simpa using ht)
    have : ({ s with tmr := 0, now := s.now + 0 } : State) = s := by
      cases s; simp_all
    rw [this]
    exact steps_zero s
  | succ n ih =>
    have hne : s.tmr ≠ 0 := fun h => by simp [h] at ht
    have h1 : s.tick.tmr.toNat = n := by
      have hlt := s.tmr.isLt
      show (s.tmr - 1).toNat = n
      rw [BitVec.toNat_sub, ht]
      simp
      omega
    have h2 := ih (s := s.tick) hr hf h1
    refine steps_cons (step_of_tmr hr hf hne) ?_
    have h3 : ({ s.tick with tmr := 0, now := s.tick.now + n } : State) =
        { s with tmr := 0, now := s.now + (n + 1) } := by
      simp [State.tick, Nat.add_assoc, Nat.add_comm 1 n]
    rwa [h3] at h2

end Sys2Proof.Laws
end

