-- ==== Sys2Proof/Tests/Slice0.lean ====
section
/-! SUPPORT. Tests: the WellFormed smoke, decoding of words written out from the encoding tables,
single steps with the results of spec/95_test_vectors.md section 2 (V1 to V22, V40), and for every
statement with hypotheses a state that meets them. -/

namespace Sys2Proof.Tests

open Sys2Proof.Machine Sys2Proof.Laws

/-! WellFormed smoke: one ill-formed term per check. -/

theorem test_wr_to_input_line_refused : (Instr.wr .btnHalt true).wellFormed = false := by decide
theorem test_wr_to_clock_line_refused : (Instr.wr .pclk false).wellFormed = false := by decide
theorem test_wrf_to_drv_refused : (Instr.wrf .drv true).wellFormed = false := by decide

/-! Decoding, each word written out bit by bit from its row of R73/R74. -/

-- op 0001, line 0011 (PWR_OK), 0000000, v 1
theorem test_decode_wr : decodeWord 0b0001_0011_0000000_1 = .ok (.wr .pwrOk true) := by decide
-- op 0010, 0000, 0000000, d 1
theorem test_decode_dir : decodeWord 0b0010_0000_0000000_1 = .ok (.dir true) := by decide
-- op 0011, n 111111111111
theorem test_decode_dly : decodeWord 0b0011_111111111111 = .ok (.dly 4095) := by decide
-- op 0100, line 0001 (BTN_HALT), s 0, tgt 0101011
theorem test_decode_brl : decodeWord 0b0100_0001_0_0101011 = .ok (.brl .btnHalt false 0x2B) := by
  decide
-- op 0101, flag 0010 (HELD_A), s 1, tgt 0111011
theorem test_decode_brf : decodeWord 0b0101_0010_1_0111011 = .ok (.brf .heldA true 0x3B) := by
  decide
-- op 0110, flag 0001 (HELD_H), 0000000, v 0
theorem test_decode_wrf : decodeWord 0b0110_0001_0000000_0 = .ok (.wrf .heldH false) := by decide
-- op 0111, 0000, 0, tgt 1111111
theorem test_decode_jmp : decodeWord 0b0111_0000_0_1111111 = .ok (.jmp 0x7F) := by decide
-- the reserved words of vector V22
theorem test_decode_reserved :
    ([0x0000, 0x8000, 0xFFFF, 0x1002, 0x1201, 0x1901, 0x1581, 0x2002, 0x2100, 0x4A00, 0x5400, 0x6301,
      0x6002, 0x7080, 0x7100] : List Word).all
      (fun w => match decodeWord w with | .ok _ => false | .error _ => true) = true := by decide
-- R57: address 0x00 = 0x1501 is the bytes 0x01, 0x15
theorem test_image_bytes_little_endian :
    State.reset.fetchBytes = [0x01, 0x15] := by decide
-- R71, R74: `JMP 0x0A` assembles to 0x700A
theorem test_encode_jmp : encode (.jmp 0x0A) = 0x700A := by decide
-- the table's numbering: WR HALT_REQ,1
theorem test_decodeTableWord : decodeTableWord 16 0x1501 = some (.wr .haltReq true) := by decide

/-! Single steps on a small state: the vectors' common pre-state. -/

/-- The input levels of a test: the given spans, every other button released. -/
def testEnv (spans : List Span) : Env :=
  { Env.initial with script := spans ++
      [⟨0, 100000, .button .reset true⟩, ⟨0, 100000, .button .halt true⟩,
       ⟨0, 100000, .button .aux true⟩] }

/-- `CS` = 0x10, `TMR` = 0, `FAULT` = 0, `now` = 0, all buttons released. -/
def pre (out : Latch) (flag : Flags) (spans : List Span) : State :=
  { State.reset with cs := 0x10, out := out, flag := flag, env := testEnv spans }

/-- What a test looks at. -/
structure Seen where
  cs : StepAddr
  tmr : Millis
  out : Latch
  flag : Flags
  fault : Bool
  now : Nat
  tr : List Stamped
deriving DecidableEq, Repr

/-- One step with the given word at `CS`; only the fields a test looks at. -/
def after (w : Nat) (s : State) : Option Seen :=
  match step (s.withFetchWord 16 w) with
  | .next t => some ⟨t.cs, t.tmr, t.out, t.flag, t.fault, t.now, t.tr⟩
  | .fault _ => none
  | .refused _ => none

-- V2
theorem test_wr_clears_one_bit :
    after 0x1800 (pre 0x3F 0x8 []) =
      some ⟨0x11, 0, 0x1F, 0x8, false, 0, [⟨0, .wr .ledAux false⟩]⟩ := by decide
-- V3: wrap of CS, an unchanged bit still recorded
theorem test_wr_wraps_and_records :
    after 0x1501 ((pre 0x04 0x8 []).goto 0x7F) =
      some ⟨0x00, 0, 0x04, 0x8, false, 0, [⟨0, .wr .haltReq true⟩]⟩ := by decide
-- V4
theorem test_dir_releases :
    after 0x2000 (pre 0x00 0xF []) =
      some ⟨0x11, 0, 0x00, 0x7, false, 0, [⟨0, .dir false⟩]⟩ := by decide
-- V6
theorem test_dly_loads :
    after 0x35DC (pre 0x00 0x8 []) = some ⟨0x11, 1500, 0x00, 0x8, false, 0, []⟩ := by decide
-- V10, V11
theorem test_brl_pressed_taken :
    after 0x412B (pre 0x00 0x8 [⟨0, 1, .button .halt false⟩]) =
      some ⟨0x2B, 0, 0x00, 0x8, false, 0, []⟩ := by decide
theorem test_brl_released_not_taken :
    after 0x412B (pre 0x00 0x8 []) = some ⟨0x11, 0, 0x00, 0x8, false, 0, []⟩ := by decide
-- V12: the latch is read
theorem test_brl_reads_the_latch :
    after 0x4528 (pre 0x2B 0x8 []) = some ⟨0x28, 0, 0x2B, 0x8, false, 0, []⟩ := by decide
-- V14: the clock line, while driving
theorem test_brl_clock_line :
    after 0x4980 (pre 0x00 0x8 [⟨0, 1, .wave true⟩]) =
      some ⟨0x00, 0, 0x00, 0x8, false, 0, []⟩ := by decide
-- V15, V16
theorem test_brf_taken :
    after 0x5338 (pre 0x00 0x4 []) = some ⟨0x38, 0, 0x00, 0x4, false, 0, []⟩ := by decide
theorem test_brf_not_taken :
    after 0x5338 (pre 0x00 0xC []) = some ⟨0x11, 0, 0x00, 0xC, false, 0, []⟩ := by decide
-- V18, V19
theorem test_wrf_edge :
    after 0x6101 (pre 0x00 0x8 []) =
      some ⟨0x11, 0, 0x00, 0xA, false, 0, [⟨0, .edge .halt⟩]⟩ := by decide
theorem test_wrf_no_edge :
    after 0x6101 (pre 0x00 0xA []) = some ⟨0x11, 0, 0x00, 0xA, false, 0, []⟩ := by decide
-- V21
theorem test_jmp :
    after 0x700A ((pre 0x00 0x8 []).goto 0x42) = some ⟨0x0A, 0, 0x00, 0x8, false, 0, []⟩ := by
  decide
-- V22
theorem test_reserved_word_faults :
    after 0x0000 (pre 0x2F 0x8 []) =
      some ⟨0x10, 0, 0x2F, 0x8, true, 0, [⟨0, .fault 0x10⟩]⟩ := by decide
-- V9
theorem test_tick :
    step { pre 0x00 0x8 [] with tmr := 3, now := 41 } =
      .next { pre 0x00 0x8 [] with tmr := 2, now := 42 } := by rfl
-- V40: TMR does not count in the faulted state
theorem test_faulted_tick :
    step { pre 0x2F 0x8 [] with cs := 0x43, tmr := 7, fault := true, now := 5000 } =
      .next { pre 0x2F 0x8 [] with cs := 0x43, tmr := 7, fault := true, now := 5001 } := by rfl
-- R208: a JMP to itself is refused by the check
theorem test_zeno_loop_refused :
    settles (Memory.writeWord [] 0x10 0x7010) 128 0x10 = false := by decide

/-! A state that meets the hypotheses of each statement that has some, clause by clause. -/

/-- A state of the reference image at a step address, after startup. -/
def at' (cs : StepAddr) (flag : Flags) (spans : List Span) : State :=
  { pre 0x2F flag spans with cs := cs }

theorem witness_execEnabled : ExecEnabled State.reset := by
  exact ⟨rfl, rfl, rfl⟩

theorem witness_encodeOfDecode : decodeWord 0x700A = .ok (.jmp 0x0A) := by decide

theorem witness_decodeOfEncode :
    (Instr.wr .pwrOk true).wellFormed = true ∧ (Instr.wrf .heldA false).wellFormed = true := by
  decide

theorem witness_wr_bounds :
    Line.pwrOk.id.toNat = 3 ∧ Line.ledAux.id.toNat = 8 ∧
    (0x1201 : Word) >>> 12 = 1 ∧ (((0x1201 : Word) >>> 8) &&& 0xF).toNat = 2 ∧
    (((0x1901 : Word) >>> 8) &&& 0xF).toNat = 9 ∧ (0x1502 : Word) &&& 0x00FE ≠ 0 := by decide

theorem witness_wrf_bounds :
    Button.reset.line.id = Flag.heldR.id ∧ Button.aux.line.id = Flag.heldA.id ∧
    (0x6301 : Word) >>> 12 = 6 ∧ ((0x6301 : Word) >>> 8) &&& 0xF = 3 := by decide

theorem witness_dly : State.reset.env.rstN = true ∧ State.reset.fault = false ∧
    4095 ≤ (4095 : Millis).toNat := by decide

theorem witness_brl_clauses :
    Button.halt.line = Line.btnHalt ∧ 3 ≤ Line.pwrOk.id.toNat ∧ Line.ledAux.id.toNat ≤ 8 ∧
    (pre 0 0x8 []).flag.getLsbD 3 = true ∧
    (pre 0 0x0 [⟨0, 1, .extClock (some true)⟩]).flag.getLsbD 3 = false ∧
    (pre 0 0x0 [⟨0, 1, .extClock (some true)⟩]).env.extClock 0 = some true := by decide

theorem witness_released_clock_line :
    (pre 0 0x0 [⟨0, 1, .extClock none⟩]).flag.getLsbD 3 = false ∧
    (pre 0 0x0 [⟨0, 1, .extClock none⟩]).env.extClock 0 = none := by decide

theorem witness_illFormed : (Instr.wr .pclk true).wellFormed = false := by decide

theorem witness_onlyNamedWrite :
    (Instr.jmp 0x0A).wellFormed = true ∧
    exec (.jmp 0x0A) State.reset = .next (State.reset.goto 0x0A) := ⟨rfl, rfl⟩

theorem witness_onlyLineReads :
    (∀ l c a, Instr.brl .haltReq false 0x28 = .brl l c a → l.isOutput = true) ∧
    exec (.brl .haltReq false 0x28) State.reset = .next (State.reset.goto 0x28) := by
  refine ⟨?_, rfl⟩
  intro l c a h
  cases h
  rfl

theorem witness_three_steps :
    (pre 0 0x8 []).env.rstN = true ∧
    ({ pre 0 0x8 [] with fault := true, tmr := 7 } : State).fault = true ∧
    ({ pre 0 0x8 [] with tmr := 7 } : State).tmr ≠ 0 ∧
    decodeWord (State.reset.rom.readWord State.reset.cs) = .ok (.wr .haltReq true) ∧
    decodeWord ((at' 0x43 0x8 []).rom.readWord 0x43) = .error .opcode := by decide

theorem witness_stepRuns :
    ExecEnabled State.reset ∧
    decodeWord (State.reset.rom.readWord State.reset.cs) = .ok (.wr .haltReq true) :=
  ⟨witness_execEnabled, by decide⟩

theorem witness_withFetchWord :
    State.reset.rom.wf = true ∧ decodeTableWord 16 0x700A = some (.jmp 0x0A) := by decide

theorem witness_reserved :
    ExecEnabled (at' 0x43 0x8 []) ∧
    decodeWord ((at' 0x43 0x8 []).rom.readWord (at' 0x43 0x8 []).cs) = .error .opcode :=
  ⟨⟨rfl, rfl, rfl⟩, by decide⟩

theorem witness_faultRaised :
    (at' 0x43 0x8 []).fault = false ∧
    step (at' 0x43 0x8 []) = .next (at' 0x43 0x8 []).illegalStep ∧
    (at' 0x43 0x8 []).illegalStep.fault = true ∧
    step State.reset = .next (State.reset.lineWrite .haltReq true).advance := ⟨rfl, rfl, rfl, rfl⟩

theorem witness_faulted :
    ({ pre 0x2F 0x8 [] with fault := true } : State).fault = true ∧
    ({ pre 0x2F 0x8 [] with fault := true } : State).env.rstN = true := by decide

/-- Assertion takes effect with no step, in the middle of a delay (R200). -/
theorem test_assert_rst_at_once :
    (({ pre 0x2F 0x7 [] with tmr := 90, now := 2200 } : State).driveRst false).pins.pwrOk = false ∧
    (({ pre 0x2F 0x7 [] with tmr := 90, now := 2200 } : State).driveRst false).tmr = 0 ∧
    (({ pre 0x2F 0x7 [] with tmr := 90, now := 2200 } : State).driveRst false).pins.pclkOe = true := by
  decide

/-- A pulse on `rst_n` with no step inside it restarts the block too (R200). -/
theorem test_rst_pulse_between_steps :
    ((({ pre 0x2F 0x7 [] with fault := true } : State).driveRst false).driveRst true).fault = false ∧
    ((({ pre 0x2F 0x7 [] with fault := true } : State).driveRst false).driveRst true).cs = 0 := by
  decide

theorem witness_hardReset :
    ((pre 0x2F 0x8 []).driveRst false).env.rstN = false ∧
    AtResetValues ((pre 0x2F 0x8 []).driveRst false) ∧
    decodeWord ((pre 0x2F 0x8 []).rom.readWord 0x00) = .ok (.wr .haltReq true) := by
  unfold AtResetValues
  decide

theorem witness_step_of_reset :
    State.reset.env.rstN = true ∧
    step State.reset = .next (State.reset.lineWrite .haltReq true).advance ∧
    Steps 1 State.reset (State.reset.lineWrite .haltReq true).advance ∧
    Chronological State.reset.now State.reset.tr :=
  ⟨rfl, rfl, rfl, List.Pairwise.nil, by simp [State.reset]⟩

theorem witness_traceTells : TraceTells State.reset := by
  refine ⟨?_, rfl, rfl⟩
  intro l h
  cases l <;> first | rfl | simp [Line.isOutput] at h

theorem witness_unused_address : 0x43 ≤ (0x43 : StepAddr).toNat := by decide

theorem witness_memory : Memory.wf [] = true ∧
    Memory.wf (Memory.writeWord [] 0x00 0x700A) = true := by decide

/-- The table of the reference image holds in a running state, so it is no empty premise. -/
theorem witness_refInv :
    RefInv (at' 0x0A 0x8 []) ∧ (at' 0x0A 0x8 []).env.rstN = true ∧
    step (at' 0x0A 0x8 []) = .next (at' 0x0B 0x8 []) := by
  refine ⟨?_, rfl, rfl⟩
  unfold RefInv
  decide

theorem witness_refInv_wrf :
    RefInv (at' 0x23 0x8 []) ∧
    decodeWord ((at' 0x23 0x8 []).rom.readWord (at' 0x23 0x8 []).cs) = .ok (.wrf .heldH true) := by
  unfold RefInv
  decide

/-- A store of two words, `DLY 5` and a `JMP` back, passes the check. -/
theorem witness_zenoFree :
    zenoFree (Memory.assemble [(0x00, .dly 5), (0x01, .jmp 0x00)]) = true ∧
    ExecEnabled { State.reset with rom := Memory.assemble [(0x00, .dly 5), (0x01, .jmp 0x00)] } :=
  ⟨by decide +kernel, rfl, rfl, rfl⟩

theorem witness_atReference_handlers :
    (AtReference (at' 0x0D 0x9 []) ∧ (at' 0x0D 0x9 []).cs = 0x0D) ∧
    (AtReference (at' 0x24 0xA []) ∧ (at' 0x24 0xA []).cs = 0x24) ∧
    (AtReference (at' 0x34 0xC []) ∧ (at' 0x34 0xC []).cs = 0x34) ∧
    (AtReference (at' 0x0A 0x8 []) ∧ (at' 0x0A 0x8 []).cs = 0x0A) :=
  ⟨⟨⟨⟨rfl, rfl, rfl⟩, rfl⟩, rfl⟩, ⟨⟨⟨rfl, rfl, rfl⟩, rfl⟩, rfl⟩, ⟨⟨⟨rfl, rfl, rfl⟩, rfl⟩, rfl⟩,
    ⟨⟨⟨rfl, rfl, rfl⟩, rfl⟩, rfl⟩⟩

theorem witness_idlePoll :
    (AtReference (at' 0x21 0x8 []) ∧ (at' 0x21 0x8 []).cs = addrPoll .halt) ∧
    (at' 0x21 0x8 []).held .halt = false ∧ (at' 0x21 0x8 []).env.btn .halt 0 = true ∧
    (at' 0x21 0x8 [⟨0, 1, .button .halt false⟩]).env.btn .halt 0 = false :=
  ⟨⟨⟨⟨rfl, rfl, rfl⟩, rfl⟩, rfl⟩, by decide, by decide, by decide⟩

theorem witness_heldPoll :
    (AtReference (at' 0x21 0xA []) ∧ (at' 0x21 0xA []).cs = addrPoll .halt) ∧
    (at' 0x21 0xA []).held .halt = true ∧
    -- pressed at 0; at 5 only; at 10 only; never
    (testEnv [⟨0, 1, .button .halt false⟩]).btn .halt 0 = false ∧
    ((testEnv [⟨5, 6, .button .halt false⟩]).btn .halt 0 = true ∧
      (testEnv [⟨5, 6, .button .halt false⟩]).btn .halt 5 = false) ∧
    ((testEnv [⟨10, 11, .button .halt false⟩]).btn .halt 5 = true ∧
      (testEnv [⟨10, 11, .button .halt false⟩]).btn .halt 10 = false) ∧
    (testEnv []).btn .halt 0 = true ∧ (testEnv []).btn .halt 5 = true ∧
    (testEnv []).btn .halt 10 = true :=
  ⟨⟨⟨⟨rfl, rfl, rfl⟩, rfl⟩, rfl⟩, by decide, by decide, by decide, by decide, by decide, by decide,
    by decide⟩

theorem witness_iteration :
    (at' 0x0A 0x8 []).env.btn .reset (at' 0x0A 0x8 []).now = true ∧
    BusConsistent (at' 0x0A 0x8 []) ∧ AuxConsistent (at' 0x0A 0x8 []) := by
  unfold BusConsistent AuxConsistent
  decide

/-! States a run visits: the halt button pressed for 5 ms from the first poll on. -/

def pressEnv : Env := testEnv [⟨2110, 2115, .button .halt false⟩]

/-- A state of that run. -/
def runAt (cs : StepAddr) (tmr : Millis) (out : Latch) (flag : Flags) (now : Nat)
    (tr : List Stamped) : State :=
  { cs := cs, tmr := tmr, out := out, flag := flag, fault := false, now := now, tr := tr, rom := [],
    env := pressEnv }

def trUp : List Stamped :=
  [⟨0, .wr .haltReq true⟩, ⟨0, .dir true⟩, ⟨0, .wr .ledAux true⟩, ⟨1500, .wr .dcOk true⟩,
   ⟨1510, .wr .pwrOk true⟩, ⟨1610, .wr .ledRun true⟩]

def trPress : List Stamped :=
  trUp ++ [⟨2110, .edge .halt⟩, ⟨2110, .wr .haltReq false⟩, ⟨2110, .wr .ledHalt true⟩]

theorem started_run : Started (runAt 0x00 0 0x00 0x8 0 []) := ⟨pressEnv, rfl, rfl⟩

theorem run_settle :
    Steps 4 (runAt 0x00 0 0x00 0x8 0 []) (runAt 0x04 1500 0x24 0x8 0 (trUp.take 3)) := rfl

theorem run_startup :
    Steps (4 + (1500 + (2 + (10 + (2 + (100 + (2 + 500))))))) (runAt 0x00 0 0x00 0x8 0 [])
      (runAt 0x0A 0 0x2F 0x8 2110 trUp) :=
  steps_trans run_settle <|
  steps_trans (steps_ticks 1500 rfl rfl rfl) <|
  steps_trans (t := runAt 0x06 10 0x26 0x8 1500 (trUp.take 4)) rfl <|
  steps_trans (steps_ticks 10 rfl rfl rfl) <|
  steps_trans (t := runAt 0x08 100 0x27 0x8 1510 (trUp.take 5)) rfl <|
  steps_trans (steps_ticks 100 rfl rfl rfl) <|
  steps_trans (t := runAt 0x0A 500 0x2F 0x8 1610 trUp) rfl <|
  steps_ticks 500 rfl rfl rfl

theorem run_to_edge :
    Steps 4 (runAt 0x0A 0 0x2F 0x8 2110 trUp) (runAt 0x23 0 0x2F 0x8 2110 trUp) := rfl

theorem run_from_edge :
    Steps (8 + (10 + (6 + (5 + (2 + (5 + 1)))))) (runAt 0x23 0 0x2F 0x8 2110 trUp)
      (runAt 0x30 0 0x3B 0xA 2130 trPress) :=
  steps_trans (t := runAt 0x42 10 0x3B 0xA 2110 trPress) rfl <|
  steps_trans (steps_ticks 10 rfl rfl rfl) <|
  steps_trans (t := runAt 0x2D 5 0x3B 0xA 2120 trPress) rfl <|
  steps_trans (steps_ticks 5 rfl rfl rfl) <|
  steps_trans (t := runAt 0x2F 5 0x3B 0xA 2125 trPress) rfl <|
  steps_trans (steps_ticks 5 rfl rfl rfl) rfl

theorem witness_visited_in_startup_delay :
    Visited (runAt 0x04 1500 0x24 0x8 0 (trUp.take 3)) ∧
    (runAt 0x04 1500 0x24 0x8 0 (trUp.take 3)).tmr ≠ 0 :=
  ⟨⟨_, _, started_run, run_settle⟩, by decide⟩

/-- Past `now` = 1610, a delay running, outside the reset sequence. -/
theorem witness_visited_loop_delay :
    Visited (runAt 0x42 10 0x3B 0xA 2110 trPress) ∧
    (runAt 0x42 10 0x3B 0xA 2110 trPress).tmr ≠ 0 ∧
    1610 < (runAt 0x42 10 0x3B 0xA 2110 trPress).now ∧
    ¬ InResetSequence (runAt 0x42 10 0x3B 0xA 2110 trPress) :=
  ⟨⟨_, _, started_run, steps_trans run_startup <| steps_trans run_to_edge <|
      (rfl : Steps 8 (runAt 0x23 0 0x2F 0x8 2110 trUp) (runAt 0x42 10 0x3B 0xA 2110 trPress))⟩, by decide, by decide,
    fun h => absurd h.2 (by decide)⟩

/-- A press edge of a run. -/
theorem witness_visited_edge :
    Visited (runAt 0x23 0 0x2F 0x8 2110 trUp) ∧
    step (runAt 0x23 0 0x2F 0x8 2110 trUp) =
      .next (runAt 0x24 0 0x2F 0xA 2110 (trUp ++ [⟨2110, .edge .halt⟩])) ∧
    (runAt 0x23 0 0x2F 0x8 2110 trUp).held .halt = false ∧
    (runAt 0x24 0 0x2F 0xA 2110 (trUp ++ [⟨2110, .edge .halt⟩])).held .halt = true :=
  ⟨⟨_, _, started_run, steps_trans run_startup run_to_edge⟩, rfl, by decide, by decide⟩

/-- The times hold at the end of the first startup delay, at its start and inside a release
confirmation, all of them states of the table. -/
theorem witness_onTime :
    (RefInv (runAt 0x04 1500 0x24 0x8 0 []) ∧ OnTime (runAt 0x04 1500 0x24 0x8 0 [])) ∧
    (RefInv (runAt 0x04 0 0x24 0x8 1500 []) ∧ OnTime (runAt 0x04 0 0x24 0x8 1500 [])) ∧
    RefInv (runAt 0x2F 5 0x3B 0xA 2125 []) ∧ OnTime (runAt 0x2F 5 0x3B 0xA 2125 []) := by
  unfold RefInv OnTime
  refine ⟨⟨by decide, by decide, ?_⟩, ⟨by decide, by decide, ?_⟩, by decide, by decide, ?_⟩ <;>
    intro b <;> cases b <;> decide

/-- A completed release confirmation of a run, in the loop. -/
theorem witness_visited_release :
    Visited (runAt 0x30 0 0x3B 0xA 2130 trPress) ∧
    0x0A ≤ (runAt 0x30 0 0x3B 0xA 2130 trPress).cs.toNat ∧
    step (runAt 0x30 0 0x3B 0xA 2130 trPress) = .next (runAt 0x31 0 0x3B 0x8 2130 trPress) ∧
    (runAt 0x30 0 0x3B 0xA 2130 trPress).held .halt = true ∧
    (runAt 0x31 0 0x3B 0x8 2130 trPress).held .halt = false :=
  ⟨⟨_, _, started_run, steps_trans run_startup (steps_trans run_to_edge run_from_edge)⟩,
    by decide, rfl, by decide, by decide⟩

end Sys2Proof.Tests
end

/-! PROOFS for the scope rules (spec/00_scope.md): model time R11, the output ports R14, the timing
parameters R7. -/

namespace Sys2Proof.Proofs

open Sys2Proof.Machine Sys2Proof.Laws

/-! Reading the reference image: a store that lists nothing reads as the image (R51, R171). -/

@[simp] theorem readByte_nil (k : BitVec 8) : Memory.readByte [] k = imageByte k := rfl

/-- The image's byte at a word's byte address: the lowest address bit picks the half (R57). -/
theorem imageByte_append (a : StepAddr) (b : BitVec 1) :
    imageByte (a ++ b) =
      if b.getLsbD 0 then (imageWord a).extractLsb' 8 8 else (imageWord a).extractLsb' 0 8 := by
  have hword : (a ++ b).extractLsb' 1 7 = a := BitVec.extractLsb'_append_eq_left
  have hbit : (a ++ b).getLsbD 0 = b.getLsbD 0 := by rw [BitVec.getLsbD_append]; rfl
  simp only [imageByte, hword, hbit]

theorem readWord_nil (a : StepAddr) : Memory.readWord [] a = imageWord a := by
  have hsplit : (imageWord a).extractLsb' 8 8 ++ (imageWord a).extractLsb' 0 8 = imageWord a := by
    rw [BitVec.extractLsb'_append_extractLsb'_eq_extractLsb' (by rfl)]
    simp
  simpa [Memory.readWord, highByteAddr, lowByteAddr, imageByte_append] using hsplit

/-- From reset on, before anything is put into the store, the words are the image's. -/
theorem readWord_reset (a : StepAddr) : State.reset.rom.readWord a = imageWord a := readWord_nil a

/-- Settles O36: the words at the sixteen addresses are the image's, and each decodes to its delay. -/
theorem referenceImageCarriesTheTimingParameters :
    Obligations.ReferenceImageCarriesTheTimingParameters := by
  unfold Obligations.ReferenceImageCarriesTheTimingParameters
  refine ⟨?_, rfl, rfl, rfl, rfl, rfl, rfl, rfl, rfl, rfl, rfl⟩
  simp only [readWord_reset]
  decide

/-- Settles O33: an output port shows its line, which reads back its latch bit (R24, R52); the clock
ports are guarded by `DRV`, bit 3 of `FLAG`. -/
theorem portsShowTheLatchAndTheDirection : Obligations.PortsShowTheLatchAndTheDirection := by
  unfold Obligations.PortsShowTheLatchAndTheDirection
  intro s
  have hport (l : Line) (h : l.isOutput = true) : s.lineLevel l = s.out.getLsbD (l.id.toNat - 3) :=
    lineLevel_output h s
  exact ⟨rfl, rfl, rfl, hport .pwrOk rfl, hport .dcOk rfl, hport .haltReq rfl, hport .ledRun rfl,
    hport .ledHalt rfl, hport .ledAux rfl⟩

/-! Model time (R11). -/

/-- No operation takes model time: a `DLY` only loads the timer, its ticks pass the time (R92, R95). -/
theorem exec_now {i : Instr} {s t : State} (h : exec i s = .next t) : t.now = s.now := by
  obtain ⟨_, _, -, -, he⟩ | ⟨_, _, -, -, he⟩ | ⟨_, -, he⟩ | ⟨_, -, he⟩ | ⟨_, _, _, -, he⟩ |
    ⟨_, _, _, -, he⟩ | ⟨_, _, -, he⟩ | ⟨_, -, he⟩ | ⟨_, -, he⟩ := exec_cases i s <;>
  · cases he.symm.trans h
    simp

/-- With `rst_n` released, a step takes one millisecond if it is a tick and none if it is an exec step
(R90, R92). -/
theorem step_now {s t : State} (hr : s.env.rstN = true) (h : step s = .next t) :
    t.now = if s.tmr ≠ 0 ∨ s.fault = true then s.now + 1 else s.now := by
  obtain ⟨hr', -⟩ | ⟨-, hf, he⟩ | ⟨-, -, ht, he⟩ | ⟨⟨-, hf, ht⟩, _, -, he⟩ |
    ⟨⟨-, hf, ht⟩, i, -, he⟩ := step_cases s
  · exact absurd (hr'.symm.trans hr) Bool.false_ne_true
  · cases he.symm.trans h
    rw [if_pos (.inr hf), tickFaulted_now]
  · cases he.symm.trans h
    rw [if_pos (.inl ht), tick_now]
  · cases he.symm.trans h
    simp [hf, ht]
  · simp [hf, ht, exec_now (he.symm.trans h)]

/-- Settles O25, by the cases of a step. -/
theorem timeAdvancesOnlyByTicks : Obligations.TimeAdvancesOnlyByTicks :=
  ⟨rfl, fun _ _ => step_now⟩

end Sys2Proof.Proofs

/-! PROOFS for the state rules (spec/10_state.md): the values after hardware reset R39. -/

namespace Sys2Proof.Proofs

open Sys2Proof.Machine

theorem atResetValues_reset : AtResetValues State.reset := ⟨rfl, rfl, rfl, rfl, rfl, rfl, rfl⟩

/-- The reset value of `FLAG` holds a 0 in each Held bit, which are its bits 0 to 2 (R27, R28). -/
theorem held_of_atResetValues {s : State} (h : AtResetValues s) (b : Button) : s.held b = false := by
  obtain ⟨-, -, -, hflag, -, -, -⟩ := h
  cases b <;> simp [State.held, State.readFlag, heldFlag, Flag.bit, hflag]

/-- It holds a 1 in `DRV`, which is its bit 3 (R27, R29). -/
theorem drv_of_atResetValues {s : State} (h : AtResetValues s) : s.drv = true := by
  obtain ⟨-, -, -, hflag, -, -, -⟩ := h
  simp [State.drv, hflag]

/-- Settles O24: the fields by their definition, the named bits of `FLAG` from its reset value. -/
theorem resetValuesAreTheSpecs : Obligations.ResetValuesAreTheSpecs :=
  have hreset := atResetValues_reset
  have ⟨hcs, htmr, hout, hflag, hfault, hnow, htr⟩ := hreset
  ⟨hcs, htmr, hfault, hflag, held_of_atResetValues hreset, drv_of_atResetValues hreset, hout, hnow,
    htr⟩

end Sys2Proof.Proofs

/-! PROOFS for the memory rules (spec/20_memory.md): the step store is read-only R51, R63. -/

namespace Sys2Proof.Proofs

open Sys2Proof.Machine Sys2Proof.Laws

/-- Whatever an operation does, it is made of updates that each leave the store's data as it is. -/
theorem exec_rom {i : Instr} {s t : State} (h : exec i s = .next t) : t.rom = s.rom := by
  obtain ⟨_, _, -, -, he⟩ | ⟨_, _, -, -, he⟩ | ⟨_, -, he⟩ | ⟨_, -, he⟩ | ⟨_, _, _, -, he⟩ |
    ⟨_, _, _, -, he⟩ | ⟨_, _, -, he⟩ | ⟨_, -, he⟩ | ⟨_, -, he⟩ := exec_cases i s <;>
  · cases he.symm.trans h
    simp only [advance_rom, lineWrite_rom, illegalStep_rom, setDir_rom, loadTimer_rom, branch_rom,
      noteRead_rom, writeHeld_rom, goto_rom]

/-- Nor does a tick, a fault taken or a hardware reset touch the store (R40, R90, R200). -/
theorem step_rom {s t : State} (h : step s = .next t) : t.rom = s.rom := by
  obtain ⟨-, he⟩ | ⟨-, -, he⟩ | ⟨-, -, -, he⟩ | ⟨-, _, -, he⟩ | ⟨-, _, -, he⟩ := step_cases s
  · cases he.symm.trans h
    exact hardReset_rom s
  · cases he.symm.trans h
    exact tickFaulted_rom s
  · cases he.symm.trans h
    exact tick_rom s
  · cases he.symm.trans h
    exact illegalStep_rom s
  · exact exec_rom (he.symm.trans h)

theorem steps_rom {n : Nat} {s t : State} (h : Steps n s t) : t.rom = s.rom := by
  induction n generalizing s with
  | zero => rw [steps_unique h (steps_zero s)]
  | succ n ih =>
    obtain ⟨u, hstep, hrest⟩ := (steps_succ_iff n s t).mp h
    exact (ih hrest).trans (step_rom hstep)

theorem sameStore_of_rom_eq {s t : State} (h : t.rom = s.rom) : SameStore s t :=
  fun a => congrArg (Memory.readByte · a) h

/-- The image has 67 words; every step address past them reads 0x0000 (R51, R171). -/
theorem imageWord_of_unused {a : StepAddr} (h : 0x43 ≤ a.toNat) : imageWord a = 0 :=
  List.getD_eq_default romWords 0 h

/-- Settles O26: the store's data is the same after every operation and, by induction on the number of
steps, after every run; so each byte and each word reads as before. -/
theorem stepStoreIsNeverWritten : Obligations.StepStoreIsNeverWritten :=
  ⟨fun _ _ _ h => sameStore_of_rom_eq (exec_rom h),
    fun _ _ _ h => ⟨sameStore_of_rom_eq (steps_rom h),
      fun a => congrArg (Memory.readWord · a) (steps_rom h)⟩,
    fun a ha => (readWord_reset a).trans (imageWord_of_unused ha)⟩

end Sys2Proof.Proofs

/-! PROOFS for the encoding rules (spec/30_encoding.md): which words decode to which operation R74, R75,
R78. -/

namespace Sys2Proof.Proofs

open Sys2Proof.Laws

/-! Ids and the lines and flags they name (R22, R27). -/

theorem lineOfId_eq_some_iff {k : BitVec 4} {l : Line} : Line.ofId k = some l ↔ k = l.id := by
  constructor
  · revert k; cases l <;> decide
  · rintro rfl; cases l <;> rfl

theorem flagOfId_eq_some_iff {k : BitVec 4} {f : Flag} : Flag.ofId k = some f ↔ k = f.id := by
  constructor
  · revert k; cases f <;> decide
  · rintro rfl; cases f <;> rfl

theorem exists_line_id_iff (k : BitVec 4) : (∃ l : Line, k = l.id) ↔ k.toNat ≤ 9 := by
  simp only [← lineOfId_eq_some_iff, ← Option.isSome_iff_exists]
  revert k; decide

theorem exists_flag_id_iff (k : BitVec 4) : (∃ f : Flag, k = f.id) ↔ k.toNat ≤ 3 := by
  simp only [← flagOfId_eq_some_iff, ← Option.isSome_iff_exists]
  revert k; decide

theorem exists_outputLine_id_iff (k : BitVec 4) :
    (∃ l : Line, k = l.id ∧ l.isOutput = true) ↔ 3 ≤ k.toNat ∧ k.toNat ≤ 8 := by
  constructor
  · rintro ⟨l, rfl, hl⟩
    exact (isOutput_iff_id l).mp hl
  · rintro ⟨hlow, hhigh⟩
    obtain ⟨l, rfl⟩ := (exists_line_id_iff k).mpr (by omega)
    exact ⟨l, rfl, (isOutput_iff_id l).mpr ⟨hlow, hhigh⟩⟩

theorem exists_heldFlag_id_iff (k : BitVec 4) :
    (∃ f : Flag, k = f.id ∧ f.isHeld = true) ↔ k.toNat ≤ 2 := by
  constructor
  · rintro ⟨f, rfl, hf⟩
    exact (isHeld_iff_id f).mp hf
  · intro hk
    obtain ⟨f, rfl⟩ := (exists_flag_id_iff k).mpr (by omega)
    exact ⟨f, rfl, (isHeld_iff_id f).mpr hk⟩

/-! What each operation's decoder accepts (R78). -/

theorem accept_if_eq_ok_iff {c : Prop} [Decidable c] {i j : Instr} {r : Reserved} :
    (if c then .ok j else .error r : Except Reserved Instr) = .ok i ↔ c ∧ j = i := by
  by_cases hc : c <;> simp [hc]

theorem decodeWr_eq_ok_iff {w : Word} {i : Instr} :
    decodeWr w = .ok i ↔ ∃ l : Line, selField w = l.id ∧ l.isOutput = true ∧ argHighField w = 0 ∧
      .wr l (valueField w) = i := by
  simp only [← lineOfId_eq_some_iff, decodeWr]
  cases Line.ofId (selField w) with
  | none => simp
  | some l => cases hl : l.isOutput <;> simp [hl, accept_if_eq_ok_iff]

theorem decodeDir_eq_ok_iff {w : Word} {i : Instr} :
    decodeDir w = .ok i ↔ selField w = 0 ∧ argHighField w = 0 ∧ .dir (valueField w) = i :=
  accept_if_eq_ok_iff.trans and_assoc

theorem decodeBrl_eq_ok_iff {w : Word} {i : Instr} :
    decodeBrl w = .ok i ↔
      ∃ l : Line, selField w = l.id ∧ .brl l (senseField w) (targetField w) = i := by
  simp only [← lineOfId_eq_some_iff, decodeBrl]
  cases Line.ofId (selField w) <;> simp

theorem decodeBrf_eq_ok_iff {w : Word} {i : Instr} :
    decodeBrf w = .ok i ↔
      ∃ f : Flag, selField w = f.id ∧ .brf f (senseField w) (targetField w) = i := by
  simp only [← flagOfId_eq_some_iff, decodeBrf]
  cases Flag.ofId (selField w) <;> simp

theorem decodeWrf_eq_ok_iff {w : Word} {i : Instr} :
    decodeWrf w = .ok i ↔ ∃ f : Flag, selField w = f.id ∧ f.isHeld = true ∧ argHighField w = 0 ∧
      .wrf f (valueField w) = i := by
  simp only [← flagOfId_eq_some_iff, decodeWrf]
  cases Flag.ofId (selField w) with
  | none => simp
  | some f => cases hf : f.isHeld <;> simp [hf, accept_if_eq_ok_iff]

theorem decodeJmp_eq_ok_iff {w : Word} {i : Instr} :
    decodeJmp w = .ok i ↔ selField w = 0 ∧ senseField w = false ∧ .jmp (targetField w) = i :=
  accept_if_eq_ok_iff.trans and_assoc

/-- The fields of a word spell an instruction: its row of R74, operands and must-be-zero bits. -/
def Spells (w : Word) : Instr → Prop
  | .wr l v => opField w = 1 ∧ selField w = l.id ∧ l.isOutput = true ∧ argHighField w = 0 ∧
      valueField w = v
  | .dir d => opField w = 2 ∧ selField w = 0 ∧ argHighField w = 0 ∧ valueField w = d
  | .dly n => opField w = 3 ∧ delayField w = n
  | .brl l c a => opField w = 4 ∧ selField w = l.id ∧ senseField w = c ∧ targetField w = a
  | .brf f c a => opField w = 5 ∧ selField w = f.id ∧ senseField w = c ∧ targetField w = a
  | .wrf f v => opField w = 6 ∧ selField w = f.id ∧ f.isHeld = true ∧ argHighField w = 0 ∧
      valueField w = v
  | .jmp a => opField w = 7 ∧ selField w = 0 ∧ senseField w = false ∧ targetField w = a

theorem spells_of_decodeWord {w : Word} {i : Instr} (h : decodeWord w = .ok i) : Spells w i := by
  have hop {k : BitVec 4} (hk : (opField w).toNat = k.toNat) : opField w = k :=
    BitVec.eq_of_toNat_eq hk
  unfold decodeWord at h
  split at h
  next hk =>
    obtain ⟨l, hsel, hl, harg, rfl⟩ := decodeWr_eq_ok_iff.mp h
    exact ⟨hop hk, hsel, hl, harg, rfl⟩
  next hk =>
    obtain ⟨hsel, harg, rfl⟩ := decodeDir_eq_ok_iff.mp h
    exact ⟨hop hk, hsel, harg, rfl⟩
  next hk =>
    cases h
    exact ⟨hop hk, rfl⟩
  next hk =>
    obtain ⟨l, hsel, rfl⟩ := decodeBrl_eq_ok_iff.mp h
    exact ⟨hop hk, hsel, rfl, rfl⟩
  next hk =>
    obtain ⟨f, hsel, rfl⟩ := decodeBrf_eq_ok_iff.mp h
    exact ⟨hop hk, hsel, rfl, rfl⟩
  next hk =>
    obtain ⟨f, hsel, hf, harg, rfl⟩ := decodeWrf_eq_ok_iff.mp h
    exact ⟨hop hk, hsel, hf, harg, rfl⟩
  next hk =>
    obtain ⟨hsel, hsense, rfl⟩ := decodeJmp_eq_ok_iff.mp h
    exact ⟨hop hk, hsel, hsense, rfl⟩
  next => cases h

theorem decodeWord_of_spells {w : Word} {i : Instr} (h : Spells w i) : decodeWord w = .ok i := by
  cases i with
  | wr l v =>
    obtain ⟨hop, hsel, hl, harg, rfl⟩ := h
    simpa [decodeWord, hop] using decodeWr_eq_ok_iff.mpr ⟨l, hsel, hl, harg, rfl⟩
  | dir d =>
    obtain ⟨hop, hsel, harg, rfl⟩ := h
    simpa [decodeWord, hop] using decodeDir_eq_ok_iff.mpr ⟨hsel, harg, rfl⟩
  | dly n =>
    obtain ⟨hop, rfl⟩ := h
    simp [decodeWord, hop]
  | brl l c a =>
    obtain ⟨hop, hsel, rfl, rfl⟩ := h
    simpa [decodeWord, hop] using decodeBrl_eq_ok_iff.mpr ⟨l, hsel, rfl⟩
  | brf f c a =>
    obtain ⟨hop, hsel, rfl, rfl⟩ := h
    simpa [decodeWord, hop] using decodeBrf_eq_ok_iff.mpr ⟨f, hsel, rfl⟩
  | wrf f v =>
    obtain ⟨hop, hsel, hf, harg, rfl⟩ := h
    simpa [decodeWord, hop] using decodeWrf_eq_ok_iff.mpr ⟨f, hsel, hf, harg, rfl⟩
  | jmp a =>
    obtain ⟨hop, hsel, hsense, rfl⟩ := h
    simpa [decodeWord, hop] using decodeJmp_eq_ok_iff.mpr ⟨hsel, hsense, rfl⟩

/-- All the decoder does: it accepts a word as an instruction exactly when the fields spell it. -/
theorem decodeWord_eq_ok_iff {w : Word} {i : Instr} : decodeWord w = .ok i ↔ Spells w i :=
  ⟨spells_of_decodeWord, decodeWord_of_spells⟩

/-! The masks of R75: each is all ones over the fields that it fixes and zero over the others. -/

theorem append_eq_append_iff {m n : Nat} {a c : BitVec m} {b d : BitVec n} :
    a ++ b = c ++ d ↔ a = c ∧ b = d := by
  constructor
  · intro h
    have hleft := congrArg (BitVec.extractLsb' n m) h
    have hright := congrArg (BitVec.extractLsb' 0 n) h
    simp only [BitVec.extractLsb'_append_eq_left] at hleft
    simp only [BitVec.extractLsb'_append_eq_right] at hright
    exact ⟨hleft, hright⟩
  · rintro ⟨rfl, rfl⟩
    rfl

/-- A mask of ones over the high part and zeros over the low part tests the high part alone. -/
theorem append_and_high_eq_iff {m n : Nat} {a c : BitVec m} {b : BitVec n} :
    (a ++ b) &&& (BitVec.allOnes m ++ 0#n) = c ++ 0#n ↔ a = c := by
  rw [BitVec.and_append, BitVec.and_allOnes, BitVec.and_zero, BitVec.append_left_inj]

theorem opField_append_selField (w : Word) : opField w ++ selField w = w.extractLsb' 8 8 :=
  BitVec.extractLsb'_append_extractLsb'_eq_extractLsb' rfl

theorem formatS_fields (w : Word) : formatS (opField w) (selField w) (argField w) = w := by
  rw [formatS, opField_append_selField]
  exact BitVec.extractLsb'_append_extractLsb'

theorem ofBool_getLsbD (w : Word) (k : Nat) : BitVec.ofBool (w.getLsbD k) = w.extractLsb' k 1 := by
  ext i hi
  obtain rfl : i = 0 := by omega
  simp

theorem argHighField_append_valueField (w : Word) :
    argHighField w ++ BitVec.ofBool (valueField w) = argField w := by
  rw [valueField, ofBool_getLsbD]
  exact BitVec.extractLsb'_append_extractLsb'_eq_extractLsb' rfl

theorem senseField_append_targetField (w : Word) :
    BitVec.ofBool (senseField w) ++ targetField w = argField w := by
  rw [senseField, ofBool_getLsbD]
  exact BitVec.extractLsb'_append_extractLsb'_eq_extractLsb' rfl

/-- `arg` under 0xFE, its must-be-zero bits in `WR`, `DIR` and `WRF`. -/
theorem argField_and_high_eq_zero_iff (w : Word) : argField w &&& 0xFE = 0 ↔ argHighField w = 0 := by
  rw [← argHighField_append_valueField]
  exact append_and_high_eq_iff (c := 0#7)

/-- `arg` under 0x80, its must-be-zero bit in `JMP`. -/
theorem argField_and_sense_eq_zero_iff (w : Word) :
    argField w &&& 0x80 = 0 ↔ senseField w = false := by
  rw [← senseField_append_targetField]
  refine (append_and_high_eq_iff (c := 0#1)).trans ?_
  cases senseField w <;> decide

theorem formatS_and (op op' sel sel' : BitVec 4) (arg arg' : BitVec 8) :
    formatS op sel arg &&& formatS op' sel' arg' =
      formatS (op &&& op') (sel &&& sel') (arg &&& arg') := by
  unfold formatS
  rw [BitVec.and_append, BitVec.and_append]

theorem formatS_eq_formatS_iff {op op' sel sel' : BitVec 4} {arg arg' : BitVec 8} :
    formatS op sel arg = formatS op' sel' arg' ↔ op = op' ∧ sel = sel' ∧ arg = arg' := by
  unfold formatS
  rw [append_eq_append_iff, append_eq_append_iff, and_assoc]

/-- A mask and match that look at all of `op` test the three fields of format S one by one. -/
theorem and_formatS_eq_iff (w : Word) (selMask op sel : BitVec 4) (argMask arg : BitVec 8) :
    w &&& formatS (BitVec.allOnes 4) selMask argMask = formatS op sel arg ↔
      opField w = op ∧ selField w &&& selMask = sel ∧ argField w &&& argMask = arg := by
  nth_rw 1 [← formatS_fields w]
  rw [formatS_and, formatS_eq_formatS_iff, BitVec.and_allOnes]

/-- The mask of `DLY`, `BRL` and `BRF`. -/
theorem and_F000_eq_iff (w : Word) (op : BitVec 4) :
    w &&& 0xF000 = formatS op 0 0 ↔ opField w = op := by
  refine (and_formatS_eq_iff w 0#4 op 0#4 0#8 0#8).trans ?_
  simp only [BitVec.and_zero, and_true]

/-- The mask of `WR` and `WRF`. -/
theorem and_F0FE_eq_iff (w : Word) (op : BitVec 4) :
    w &&& 0xF0FE = formatS op 0 0 ↔ opField w = op ∧ argHighField w = 0 := by
  refine (and_formatS_eq_iff w 0#4 op 0#4 0xFE 0).trans ?_
  simp only [BitVec.and_zero, true_and, argField_and_high_eq_zero_iff]

/-- The mask of `DIR`. -/
theorem and_FFFE_eq_iff (w : Word) (op : BitVec 4) :
    w &&& 0xFFFE = formatS op 0 0 ↔ opField w = op ∧ selField w = 0 ∧ argHighField w = 0 := by
  refine (and_formatS_eq_iff w (BitVec.allOnes 4) op 0 0xFE 0).trans ?_
  rw [BitVec.and_allOnes, argField_and_high_eq_zero_iff]

/-- The mask of `JMP`. -/
theorem and_FF80_eq_iff (w : Word) (op : BitVec 4) :
    w &&& 0xFF80 = formatS op 0 0 ↔ opField w = op ∧ selField w = 0 ∧ senseField w = false := by
  refine (and_formatS_eq_iff w (BitVec.allOnes 4) op 0 0x80 0).trans ?_
  rw [BitVec.and_allOnes, argField_and_sense_eq_zero_iff]

/-! The seven rows of R75. -/

theorem matchesWrRow_iff_decodeWord (w : Word) :
    (w &&& 0xF0FE = 0x1000 ∧ 3 ≤ (selField w).toNat ∧ (selField w).toNat ≤ 8) ↔
      ∃ l v, decodeWord w = .ok (.wr l v) := by
  have hmask : w &&& 0xF0FE = 0x1000 ↔ _ := and_F0FE_eq_iff w 1
  simp only [hmask, ← exists_outputLine_id_iff, decodeWord_eq_ok_iff, Spells]
  exact ⟨fun ⟨⟨hop, harg⟩, l, hsel, hl⟩ => ⟨l, _, hop, hsel, hl, harg, rfl⟩,
    fun ⟨l, _, hop, hsel, hl, harg, _⟩ => ⟨⟨hop, harg⟩, l, hsel, hl⟩⟩

theorem matchesDirRow_iff_decodeWord (w : Word) :
    w &&& 0xFFFE = 0x2000 ↔ ∃ d, decodeWord w = .ok (.dir d) := by
  have hmask : w &&& 0xFFFE = 0x2000 ↔ _ := and_FFFE_eq_iff w 2
  simp only [hmask, decodeWord_eq_ok_iff, Spells]
  exact ⟨fun ⟨hop, hsel, harg⟩ => ⟨_, hop, hsel, harg, rfl⟩,
    fun ⟨_, hop, hsel, harg, _⟩ => ⟨hop, hsel, harg⟩⟩

theorem matchesDlyRow_iff_decodeWord (w : Word) :
    w &&& 0xF000 = 0x3000 ↔ ∃ n, decodeWord w = .ok (.dly n) := by
  have hmask : w &&& 0xF000 = 0x3000 ↔ _ := and_F000_eq_iff w 3
  simp only [hmask, decodeWord_eq_ok_iff, Spells]
  exact ⟨fun hop => ⟨_, hop, rfl⟩, fun ⟨_, hop, _⟩ => hop⟩

theorem matchesBrlRow_iff_decodeWord (w : Word) :
    (w &&& 0xF000 = 0x4000 ∧ (selField w).toNat ≤ 9) ↔
      ∃ l c a, decodeWord w = .ok (.brl l c a) := by
  have hmask : w &&& 0xF000 = 0x4000 ↔ _ := and_F000_eq_iff w 4
  simp only [hmask, ← exists_line_id_iff, decodeWord_eq_ok_iff, Spells]
  exact ⟨fun ⟨hop, l, hsel⟩ => ⟨l, _, _, hop, hsel, rfl, rfl⟩,
    fun ⟨l, _, _, hop, hsel, _⟩ => ⟨hop, l, hsel⟩⟩

theorem matchesBrfRow_iff_decodeWord (w : Word) :
    (w &&& 0xF000 = 0x5000 ∧ (selField w).toNat ≤ 3) ↔
      ∃ f c a, decodeWord w = .ok (.brf f c a) := by
  have hmask : w &&& 0xF000 = 0x5000 ↔ _ := and_F000_eq_iff w 5
  simp only [hmask, ← exists_flag_id_iff, decodeWord_eq_ok_iff, Spells]
  exact ⟨fun ⟨hop, f, hsel⟩ => ⟨f, _, _, hop, hsel, rfl, rfl⟩,
    fun ⟨f, _, _, hop, hsel, _⟩ => ⟨hop, f, hsel⟩⟩

theorem matchesWrfRow_iff_decodeWord (w : Word) :
    (w &&& 0xF0FE = 0x6000 ∧ (selField w).toNat ≤ 2) ↔ ∃ f v, decodeWord w = .ok (.wrf f v) := by
  have hmask : w &&& 0xF0FE = 0x6000 ↔ _ := and_F0FE_eq_iff w 6
  simp only [hmask, ← exists_heldFlag_id_iff, decodeWord_eq_ok_iff, Spells]
  exact ⟨fun ⟨⟨hop, harg⟩, f, hsel, hf⟩ => ⟨f, _, hop, hsel, hf, harg, rfl⟩,
    fun ⟨f, _, hop, hsel, hf, harg, _⟩ => ⟨⟨hop, harg⟩, f, hsel, hf⟩⟩

theorem matchesJmpRow_iff_decodeWord (w : Word) :
    w &&& 0xFF80 = 0x7000 ↔ ∃ a, decodeWord w = .ok (.jmp a) := by
  have hmask : w &&& 0xFF80 = 0x7000 ↔ _ := and_FF80_eq_iff w 7
  simp only [hmask, decodeWord_eq_ok_iff, Spells]
  exact ⟨fun ⟨hop, hsel, hsense⟩ => ⟨_, hop, hsel, hsense, rfl⟩,
    fun ⟨_, hop, hsel, hsense, _⟩ => ⟨hop, hsel, hsense⟩⟩

/-- R75's `sel`, shifted and masked from the word, is the field of R71. -/
theorem shiftRight_and_toNat_eq_selField (w : Word) :
    ((w >>> 8) &&& 0xF).toNat = (selField w).toNat := by
  rw [selField, BitVec.extractLsb'_toNat, BitVec.toNat_and, BitVec.toNat_ushiftRight]
  exact Nat.and_two_pow_sub_one_eq_mod _ 4

/-- Settles O1, row by row: a mask and match test the fields that the row fixes, its range holds for the
ids that the row may name, and the decoder accepts a word exactly when its fields spell an instruction. -/
theorem decodeFollowsTheTable : Obligations.DecodeFollowsTheTable := by
  unfold Obligations.DecodeFollowsTheTable
  intro w
  rw [shiftRight_and_toNat_eq_selField]
  exact ⟨matchesWrRow_iff_decodeWord w, matchesDirRow_iff_decodeWord w,
    matchesDlyRow_iff_decodeWord w, matchesBrlRow_iff_decodeWord w, matchesBrfRow_iff_decodeWord w,
    matchesWrfRow_iff_decodeWord w, matchesJmpRow_iff_decodeWord w⟩

end Sys2Proof.Proofs

/-! PROOFS for the step operations (spec/40_step_ops.md): what each operation does and which word spells it
R93 to R99, taking the fault R100, the step relation R90 to R92. -/

namespace Sys2Proof.Proofs

open Sys2Proof.Machine Sys2Proof.Laws

/-! Words assembled by shifts (R71, R72, R74): the `or` of shifted fields is their concatenation. -/

theorem setWidth_append_eq_or {m n k : Nat} (x : BitVec m) (y : BitVec n) :
    (x ++ y).setWidth k = x.setWidth k <<< n ||| y.setWidth k := by
  ext i hi
  by_cases hn : i < n
  · simp [BitVec.getLsbD_append, hn]
  · simp [BitVec.getLsbD_append, BitVec.getLsbD_of_ge y i (by omega), hn]

theorem formatS_eq_or (op sel : BitVec 4) (arg : BitVec 8) :
    formatS op sel arg = op.setWidth 16 <<< 12 ||| sel.setWidth 16 <<< 8 ||| arg.setWidth 16 := by
  have houter := setWidth_append_eq_or (k := 16) (op ++ sel) arg
  have hinner := setWidth_append_eq_or (k := 16) op sel
  rw [BitVec.setWidth_eq] at houter
  rw [formatS, houter, hinner, BitVec.shiftLeft_or_distrib, ← BitVec.shiftLeft_add]

/-- A word of `WR`, `DIR` or `WRF`. -/
theorem or_value_eq_formatS (op sel : BitVec 4) (v : Bool) :
    op.setWidth 16 <<< 12 ||| sel.setWidth 16 <<< 8 ||| (BitVec.ofBool v).setWidth 16 =
      formatS op sel (valueArg v) := by
  rw [formatS_eq_or]
  cases v <;> rfl

/-- A word of `BRL`, `BRF` or `JMP`. -/
theorem or_branch_eq_formatS (op sel : BitVec 4) (c : Bool) (a : StepAddr) :
    op.setWidth 16 <<< 12 ||| sel.setWidth 16 <<< 8 ||| (BitVec.ofBool c).setWidth 16 <<< 7 |||
      a.setWidth 16 = formatS op sel (branchArg c a) := by
  rw [formatS_eq_or, branchArg, setWidth_append_eq_or, BitVec.or_assoc]

/-- A word of `DLY`. -/
theorem or_delay_eq_append (op : BitVec 4) (n : Millis) :
    op.setWidth 16 <<< 12 ||| n.setWidth 16 = op ++ n := by
  rw [← setWidth_append_eq_or, BitVec.setWidth_eq]

/-! The fields of an assembled word. -/

theorem fields_formatS (op sel : BitVec 4) (arg : BitVec 8) :
    opField (formatS op sel arg) = op ∧ selField (formatS op sel arg) = sel ∧
      argField (formatS op sel arg) = arg :=
  formatS_eq_formatS_iff.mp (formatS_fields _)

theorem fields_formatS_valueArg (op sel : BitVec 4) (v : Bool) :
    opField (formatS op sel (valueArg v)) = op ∧ selField (formatS op sel (valueArg v)) = sel ∧
      argHighField (formatS op sel (valueArg v)) = 0 ∧
      valueField (formatS op sel (valueArg v)) = v := by
  obtain ⟨hop, hsel, harg⟩ := fields_formatS op sel (valueArg v)
  rw [← argHighField_append_valueField, valueArg, append_eq_append_iff] at harg
  obtain ⟨hhigh, hvalue⟩ := harg
  exact ⟨hop, hsel, hhigh, BitVec.ofBool_eq_iff_eq.mp hvalue⟩

theorem fields_formatS_branchArg (op sel : BitVec 4) (c : Bool) (a : StepAddr) :
    opField (formatS op sel (branchArg c a)) = op ∧ selField (formatS op sel (branchArg c a)) = sel ∧
      senseField (formatS op sel (branchArg c a)) = c ∧
      targetField (formatS op sel (branchArg c a)) = a := by
  obtain ⟨hop, hsel, harg⟩ := fields_formatS op sel (branchArg c a)
  rw [← senseField_append_targetField, branchArg, append_eq_append_iff] at harg
  obtain ⟨hsense, htarget⟩ := harg
  exact ⟨hop, hsel, BitVec.ofBool_eq_iff_eq.mp hsense, htarget⟩

/-- The word of a well-formed instruction spells it. -/
theorem spells_encode {i : Instr} (h : i.wellFormed = true) : Spells (encode i) i := by
  cases i with
  | wr l v =>
    obtain ⟨hop, hsel, harg, hvalue⟩ := fields_formatS_valueArg 1 l.id v
    exact ⟨hop, hsel, h, harg, hvalue⟩
  | dir d => exact fields_formatS_valueArg 2 0 d
  | dly n => exact ⟨BitVec.extractLsb'_append_eq_left, BitVec.extractLsb'_append_eq_right⟩
  | brl l c a => exact fields_formatS_branchArg 4 l.id c a
  | brf f c a => exact fields_formatS_branchArg 5 f.id c a
  | wrf f v =>
    obtain ⟨hop, hsel, harg, hvalue⟩ := fields_formatS_valueArg 6 f.id v
    exact ⟨hop, hsel, h, harg, hvalue⟩
  | jmp a => exact fields_formatS_branchArg 7 0 false a

theorem decodeWord_encode {i : Instr} (h : i.wellFormed = true) : decodeWord (encode i) = .ok i :=
  decodeWord_of_spells (spells_encode h)

/-- Only well-formed instructions come out of the decoder (R76). -/
theorem wellFormed_of_decodeWord {w : Word} {i : Instr} (h : decodeWord w = .ok i) :
    i.wellFormed = true := by
  have hspells := spells_of_decodeWord h
  cases i with
  | wr l v =>
    obtain ⟨-, -, hl, -, -⟩ := hspells
    exact hl
  | wrf f v =>
    obtain ⟨-, -, hf, -, -⟩ := hspells
    exact hf
  | dir d => rfl
  | dly n => rfl
  | brl l c a => rfl
  | brf f c a => rfl
  | jmp a => rfl

/-! Reserved words of `WR` and `WRF` (R76). -/

theorem ushiftRight_toNat_eq_opField (w : Word) : (w >>> 12).toNat = (opField w).toNat := by
  have hlt := w.isLt
  rw [opField, BitVec.extractLsb'_toNat, BitVec.toNat_ushiftRight, Nat.shiftRight_eq_div_pow]
  omega

/-- The must-be-zero bits of `WR` and `WRF`, tested in the word. -/
theorem and_00FE_eq_zero_iff (w : Word) : w &&& 0x00FE = 0 ↔ argHighField w = 0 := by
  have hand : w &&& formatS 0 0 0xFE = formatS 0 0 (argField w &&& 0xFE) := by
    nth_rw 1 [← formatS_fields w]
    exact (formatS_and _ _ _ _ _ _).trans (by simp)
  have hzero : formatS 0 0 (argField w &&& 0xFE) = formatS 0 0 0 ↔ argField w &&& 0xFE = 0 := by
    simp [formatS_eq_formatS_iff]
  rw [← argField_and_high_eq_zero_iff, ← hzero, ← hand]
  rfl

theorem exists_error_of_ne_ok {x : Except Reserved Instr} (h : ∀ i, x ≠ .ok i) : ∃ r, x = .error r := by
  cases x with
  | ok i => exact absurd rfl (h i)
  | error r => exact ⟨r, rfl⟩

theorem reserved_of_op_wr {w : Word} (hop : w >>> 12 = 1)
    (h : ((w >>> 8) &&& 0xF).toNat < 3 ∨ 8 < ((w >>> 8) &&& 0xF).toNat ∨ w &&& 0x00FE ≠ 0) :
    ∃ r, decodeWord w = .error r := by
  have hop' : (opField w).toNat = 1 := by rw [← ushiftRight_toNat_eq_opField, hop]; rfl
  have hdecode : decodeWord w = decodeWr w := by simp [decodeWord, hop']
  rw [hdecode]
  refine exists_error_of_ne_ok fun i hi => ?_
  obtain ⟨l, hsel, hl, harg, -⟩ := decodeWr_eq_ok_iff.mp hi
  obtain ⟨hlow, hhigh⟩ := (isOutput_iff_id l).mp hl
  rw [shiftRight_and_toNat_eq_selField, hsel] at h
  obtain h | h | h := h
  · omega
  · omega
  · exact h ((and_00FE_eq_zero_iff w).mpr harg)

/-- `DRV` is no Held bit: selector 3 (R98). -/
theorem reserved_of_op_wrf_sel_drv {w : Word} (hop : w >>> 12 = 6) (hsel : (w >>> 8) &&& 0xF = 3) :
    ∃ r, decodeWord w = .error r := by
  have hop' : (opField w).toNat = 6 := by rw [← ushiftRight_toNat_eq_opField, hop]; rfl
  have hsel' : (selField w).toNat = 3 := by rw [← shiftRight_and_toNat_eq_selField, hsel]; rfl
  have hdecode : decodeWord w = decodeWrf w := by simp [decodeWord, hop']
  rw [hdecode]
  refine exists_error_of_ne_ok fun i hi => ?_
  obtain ⟨f, hf, hheld, -⟩ := decodeWrf_eq_ok_iff.mp hi
  have hle := (isHeld_iff_id f).mp hheld
  rw [← hf] at hle
  omega

/-! Bits, Held flags and reads, as the operations use them. -/

theorem getLsbD_setBit_of_lt {n : Nat} {v : BitVec n} {i j : Nat} {b : Bool} (h : j < n) :
    (setBit v i b).getLsbD j = if j = i then b else v.getLsbD j := by
  simp only [getLsbD_setBit, h, and_true]

theorem eq_heldFlag_of_id {f : Flag} {b : Button} (h : b.line.id = f.id) : f = heldFlag b := by
  revert h; cases b <;> cases f <;> decide

theorem heldFlag_isHeld (b : Button) : (heldFlag b).isHeld = true := by cases b <;> rfl

/-- A read can move the count of draws and nothing else (R52, R59). -/
theorem noteRead_frame (l : Line) (s : State) :
    s.noteRead l = { s with env := { s.env with draws := (s.noteRead l).env.draws } } := by
  rw [noteRead_eq]
  split <;> rfl

theorem noteRead_env_of_ne_pclk {l : Line} (h : l ≠ .pclk) (s : State) :
    (s.noteRead l).env = s.env := by
  rw [noteRead_eq, if_neg fun hc => h hc.1]

/-! What each operation answers, as a whole next state (R93 to R99). -/

theorem exec_wr_output {l : Line} (h : l.isOutput = true) (v : Bool) (s : State) :
    exec (.wr l v) s = .next { s with
      out := setBit s.out (l.id.toNat - 3) v
      tr := s.tr ++ [⟨s.now, .wr l v⟩]
      cs := s.cs + 1 } := by
  show execWr l v s = _
  rw [execWr, if_pos h, lineWrite_output h]
  rfl

theorem exec_dir (d : Bool) (s : State) :
    exec (.dir d) s = .next { s with
      flag := setBit s.flag 3 d
      tr := s.tr ++ [⟨s.now, .dir d⟩]
      cs := s.cs + 1 } := rfl

theorem exec_dly (n : Millis) (s : State) :
    exec (.dly n) s = .next { s with tmr := n, cs := s.cs + 1 } := rfl

theorem exec_brl (l : Line) (c : Bool) (a : StepAddr) (s : State) :
    exec (.brl l c a) s = .next { s.noteRead l with
      cs := if s.lineLevel l = c then a else s.cs + 1 } := by
  show Host.Outcome.next ((s.noteRead l).branch (s.lineLevel l == c) a) = _
  simp only [State.branch, State.goto, noteRead_cs, beq_iff_eq]

theorem exec_brf (f : Flag) (c : Bool) (a : StepAddr) (s : State) :
    exec (.brf f c a) s =
      .next { s with cs := if s.flag.getLsbD f.id.toNat = c then a else s.cs + 1 } := by
  show Host.Outcome.next (s.branch (s.readFlag f == c) a) = _
  simp only [State.branch, State.goto, State.readFlag, flag_bit_eq_id, beq_iff_eq]

theorem exec_wrf_heldFlag (b : Button) (v : Bool) (s : State) :
    exec (.wrf (heldFlag b) v) s = .next { s with
      flag := setBit s.flag (heldFlag b).id.toNat v
      tr := if v = true ∧ s.flag.getLsbD (heldFlag b).id.toNat = false then
          s.tr ++ [⟨s.now, .edge b⟩]
        else s.tr
      cs := s.cs + 1 } := by
  have hexec : exec (.wrf (heldFlag b) v) s = .next (s.writeHeld b v).advance := by
    cases b <;> rfl
  rw [hexec, writeHeld_eq]
  simp [State.advance, State.goto, State.held, State.readFlag, flag_bit_eq_id]

theorem exec_jmp (a : StepAddr) (s : State) : exec (.jmp a) s = .next { s with cs := a } := rfl

/-- No operation stops the machine or is refused. -/
theorem exec_next (i : Instr) (s : State) : ∃ t, exec i s = .next t := by
  obtain ⟨_, _, -, -, he⟩ | ⟨_, _, -, -, he⟩ | ⟨_, -, he⟩ | ⟨_, -, he⟩ | ⟨_, _, _, -, he⟩ |
    ⟨_, _, _, -, he⟩ | ⟨_, _, -, he⟩ | ⟨_, -, he⟩ | ⟨_, -, he⟩ := exec_cases i s <;>
  exact ⟨_, he⟩

/-- Nor does a step (R90). -/
theorem step_next (s : State) : ∃ t, step s = .next t := by
  obtain ⟨-, he⟩ | ⟨-, -, he⟩ | ⟨-, -, -, he⟩ | ⟨-, _, -, he⟩ | ⟨-, i, -, he⟩ := step_cases s
  · exact ⟨_, he⟩
  · exact ⟨_, he⟩
  · exact ⟨_, he⟩
  · exact ⟨_, he⟩
  · rw [he]
    exact exec_next i s

/-! Runs of ticks (R92). -/

/-- Inside a delay, `j` ticks take `j` off the timer. -/
theorem steps_ticks_of_le {s : State} (hr : s.env.rstN = true) (hf : s.fault = false) (j : Nat)
    (hj : j ≤ s.tmr.toNat) :
    Steps j s { s with tmr := s.tmr - BitVec.ofNat 12 j, now := s.now + j } := by
  induction j with
  | zero => simpa using steps_zero s
  | succ j ih =>
    have hne : s.tmr - BitVec.ofNat 12 j ≠ 0 := by bv_omega
    refine steps_trans (ih (by omega)) (steps_cons (step_of_tmr hr hf hne) ?_)
    rw [BitVec.ofNat_add, ← BitVec.sub_sub]
    exact steps_zero _

/-- In the faulted state only model time moves on. -/
theorem steps_faulted {s : State} (hr : s.env.rstN = true) (hf : s.fault = true) (n : Nat) :
    Steps n s { s with now := s.now + n } := by
  induction n with
  | zero => exact steps_zero s
  | succ n ih => exact steps_trans ih (steps_cons (step_of_fault hr hf) (steps_zero _))

/-- Settles O9: the ticks by induction on their number. -/
theorem dlyWaitsExactly : Obligations.DlyWaitsExactly := by
  unfold Obligations.DlyWaitsExactly
  intro n s
  refine ⟨?_, exec_dly n s, fun hr hf => ⟨fun j hj => ?_, hr, hf, rfl⟩⟩
  · have hword : 0x3000#16 ||| n.setWidth 16 = encode (.dly n) := or_delay_eq_append 3 n
    rw [hword]
    exact decodeWord_encode rfl
  · exact steps_ticks_of_le (s := { s with tmr := n, cs := s.cs + 1 }) hr hf j hj

/-- Settles O20: the faulted state has the pin released still, so faulted ticks follow until the pin
is asserted, and then every step is a hardware reset. -/
theorem reservedWordTakesTheFault : Obligations.ReservedWordTakesTheFault := by
  unfold Obligations.ReservedWordTakesTheFault
  intro s r he hr
  have hfetch : s.fetch = .error r := (fetch_eq_decodeWord s).trans hr
  refine ⟨s.illegalStep, step_of_reserved he hfetch, illegalStep_eq s, fun n => ?_,
    driveRst_false_fault _, _, step_of_reset rfl, hardReset_fault _⟩
  exact steps_faulted (s := s.illegalStep) he.1 rfl n

/-- Settles O6: an id from 3 to 8 is an output line's, whose one latch bit the operation sets; a word that
`WR` does accept has such a selector and clear must-be-zero bits. -/
theorem wrWritesOneOutputLine : Obligations.WrWritesOneOutputLine := by
  unfold Obligations.WrWritesOneOutputLine
  refine ⟨fun l v s hlow hhigh => ?_, fun _ => reserved_of_op_wr⟩
  have hl : l.isOutput = true := (isOutput_iff_id l).mpr ⟨hlow, hhigh⟩
  have hword : 0x1000#16 ||| (l.id.setWidth 16 <<< 8) ||| (BitVec.ofBool v).setWidth 16 =
      encode (.wr l v) := or_value_eq_formatS 1 l.id v
  rw [hword]
  exact ⟨decodeWord_encode hl, _, exec_wr_output hl v s, fun _ hk => getLsbD_setBit_of_lt hk, rfl⟩

/-- Settles O7: the operation sets bit 3 of `FLAG`, and the pad looks at that bit. -/
theorem dirSetsTheDirection : Obligations.DirSetsTheDirection := by
  unfold Obligations.DirSetsTheDirection
  intro d s
  have hword : 0x2000#16 ||| (BitVec.ofBool d).setWidth 16 = encode (.dir d) :=
    or_value_eq_formatS 2 0 d
  rw [hword]
  have hdrv : (setBit s.flag 3 d).getLsbD 3 = d := getLsbD_setBit_self s.flag (by decide) d
  refine ⟨decodeWord_encode rfl, _, exec_dir d s, fun _ hk => getLsbD_setBit_of_lt hk, rfl, ?_⟩
  simp only [State.pclkPad, State.drv, hdrv]

/-- Settles O8: the ids of the button lines are those of their Held flags, and `WRF` accepts no other
flag. -/
theorem wrfWritesOneHeldBit : Obligations.WrfWritesOneHeldBit := by
  unfold Obligations.WrfWritesOneHeldBit
  refine ⟨fun f b v s hid => ?_, fun _ => reserved_of_op_wrf_sel_drv⟩
  obtain rfl := eq_heldFlag_of_id hid
  have hword : 0x6000#16 ||| ((heldFlag b).id.setWidth 16 <<< 8) ||| (BitVec.ofBool v).setWidth 16 =
      encode (.wrf (heldFlag b) v) := or_value_eq_formatS 6 (heldFlag b).id v
  rw [hword]
  exact ⟨decodeWord_encode (heldFlag_isHeld b), _, exec_wrf_heldFlag b v s,
    fun _ hk => getLsbD_setBit_of_lt hk, rfl⟩

/-- Settles O10: the level is what the line reads as, by the kind of the line (R52, R53). -/
theorem brlBranchesOnTheLineLevel : Obligations.BrlBranchesOnTheLineLevel := by
  unfold Obligations.BrlBranchesOnTheLineLevel
  intro l c a s
  have hword : 0x4000#16 ||| (l.id.setWidth 16 <<< 8) ||| ((BitVec.ofBool c).setWidth 16 <<< 7) |||
      a.setWidth 16 = encode (.brl l c a) := or_branch_eq_formatS 4 l.id c a
  rw [hword]
  refine ⟨decodeWord_encode rfl, _, s.lineLevel l, exec_brl l c a s, ?button, fun hlow hhigh => ?latch,
    ?driving, ?released, ?frame, fun hl => noteRead_env_of_ne_pclk hl s⟩
  case button =>
    rintro b rfl
    exact lineLevel_input b s
  case latch => exact lineLevel_output ((isOutput_iff_id l).mpr ⟨hlow, hhigh⟩) s
  case driving =>
    rintro rfl hdrv
    exact (lineLevel_pclk s).trans (if_pos hdrv)
  case released =>
    rintro x rfl hdrv hext
    have hdrv' : s.drv = false := hdrv
    simp [lineLevel_pclk, hdrv', hext]
  case frame => rw [noteRead_frame]

/-- Settles O12: a flag's bit is its id, and the branch changes `CS` alone. -/
theorem brfBranchesOnTheFlag : Obligations.BrfBranchesOnTheFlag := by
  unfold Obligations.BrfBranchesOnTheFlag
  intro f c a s
  have hword : 0x5000#16 ||| (f.id.setWidth 16 <<< 8) ||| ((BitVec.ofBool c).setWidth 16 <<< 7) |||
      a.setWidth 16 = encode (.brf f c a) := or_branch_eq_formatS 5 f.id c a
  rw [hword]
  exact ⟨decodeWord_encode rfl, exec_brf f c a s⟩

/-- Settles O13: the selector and the sense of the assembled word are 0, as `JMP` requires. -/
theorem jmpLoadsTheTarget : Obligations.JmpLoadsTheTarget := by
  unfold Obligations.JmpLoadsTheTarget
  intro a s
  have hword : 0x7000#16 ||| a.setWidth 16 = encode (.jmp a) := or_branch_eq_formatS 7 0 false a
  rw [hword]
  exact ⟨decodeWord_encode rfl, exec_jmp a s⟩

/-- Settles O17: one clause for each of the guards of R90. -/
theorem oneOfThreeStepsIsEnabled : Obligations.OneOfThreeStepsIsEnabled := by
  unfold Obligations.OneOfThreeStepsIsEnabled
  intro s hr
  refine ⟨step_of_fault hr, step_of_tmr hr, fun hf ht => ?_, step_next s⟩
  have he : ExecEnabled s := ⟨hr, hf, ht⟩
  rw [← fetch_eq_decodeWord]
  exact ⟨fun i => step_of_fetch he, fun r => step_of_reserved he⟩

/-- Settles O18: the decoder yields well-formed instructions only, and no operation takes model time. -/
theorem stepRunsTheDecodedInstruction : Obligations.StepRunsTheDecodedInstruction := by
  unfold Obligations.StepRunsTheDecodedInstruction
  intro s i he hi
  have hstep : step s = exec i s := step_of_fetch he ((fetch_eq_decodeWord s).trans hi)
  obtain ⟨t, ht⟩ := exec_next i s
  exact ⟨wellFormed_of_decodeWord hi, hstep, t, hstep.trans ht, exec_now ht⟩

end Sys2Proof.Proofs

/-! PROOFS for the debounced button (spec/41_debounced_button.md): a poll of an Idle button R111, R112, a
poll of a Held button R113 to R116, run from the reference image. -/

namespace Sys2Proof.Proofs

open Sys2Proof.Machine Sys2Proof.Laws

/-! One step of the reference image (R91, R171). A state at step address `a` is written `s.goto a`. -/

theorem step_of_imageWord {s : State} {a : StepAddr} {i : Instr} (h : AtReference s)
    (hi : decodeWord (imageWord a) = .ok i) : step (s.goto a) = exec i (s.goto a) := by
  obtain ⟨hexec, hrom⟩ := h
  refine step_of_fetch hexec ?_
  rw [fetch_eq_decodeWord, goto_cs, goto_rom, hrom, readWord_nil, hi]

theorem steps_one {s t : State} (h : step s = .next t) : Steps 1 s t := steps_cons h (steps_zero t)

theorem goto_of_cs {s : State} {a : StepAddr} (h : s.cs = a) : s.goto a = s := by rw [← h]; rfl

theorem steps_jmp {s : State} {a t : StepAddr} (h : AtReference s)
    (hi : decodeWord (imageWord a) = .ok (.jmp t)) : Steps 1 (s.goto a) (s.goto t) :=
  steps_one ((step_of_imageWord h hi).trans (exec_jmp t _))

/-- A branch on a flag. -/
theorem steps_brf {s : State} {a t : StepAddr} {f : Flag} {c : Bool} (h : AtReference s)
    (hi : decodeWord (imageWord a) = .ok (.brf f c t)) :
    Steps 1 (s.goto a) (s.goto (if s.readFlag f = c then t else a + 1)) := by
  have hstep := (step_of_imageWord h hi).trans (exec_brf f c t _)
  rw [← flag_bit_eq_id] at hstep
  exact steps_one hstep

/-- A branch on a line whose level is known to the block: any but the clock line. -/
theorem steps_brl {s : State} {a t : StepAddr} {l : Line} {c : Bool} (h : AtReference s)
    (hl : l ≠ .pclk) (hi : decodeWord (imageWord a) = .ok (.brl l c t)) :
    Steps 1 (s.goto a) (s.goto (if s.lineLevel l = c then t else a + 1)) := by
  have hstep := (step_of_imageWord h hi).trans (exec_brl l c t _)
  rw [noteRead_eq, if_neg fun hc => hl hc.1] at hstep
  exact steps_one hstep

/-- One sample of a button (R111, R113). -/
theorem steps_sample {s : State} {a t : StepAddr} {b : Button} {c : Bool} (h : AtReference s)
    (hi : decodeWord (imageWord a) = .ok (.brl b.line c t)) :
    Steps 1 (s.goto a) (s.goto (if s.env.btn b s.now = c then t else a + 1)) := by
  rw [← lineLevel_input]
  exact steps_brl h (by cases b <;> decide) hi

/-! Straight-line code: a listing of operations that neither branch nor jump does to the state what its
operations do one after the other, each `DLY` as a whole delay. -/

/-- What an operation does to everything but `CS`, a `DLY` with its ticks. The branches and `JMP` change
`CS` alone. -/
def effect (s : State) : Instr → State
  | .wr l v => s.lineWrite l v
  | .dir d => s.setDir d
  | .dly n => s.sleep n.toNat
  | .wrf f v =>
    match f.button with
    | some b => s.writeHeld b v
    | none => s
  | .brl _ _ _ => s
  | .brf _ _ _ => s
  | .jmp _ => s

/-- The steps an operation takes: its exec step and the ticks of a `DLY`. -/
def stepCount : Instr → Nat
  | .dly n => 1 + n.toNat
  | _ => 1

/-- The operation goes on to the next address. -/
def isStraight : Instr → Bool
  | .wr _ _ | .dir _ | .dly _ | .wrf _ _ => true
  | .brl _ _ _ | .brf _ _ _ | .jmp _ => false

/-- The reference image holds these operations from step address `a` on, none a branch or a jump. -/
def holdsStraight (a : StepAddr) : List Instr → Bool
  | [] => true
  | i :: is =>
    decide (decodeWord (imageWord a) = .ok i) && isStraight i && holdsStraight (a + 1) is

theorem holdsStraight_cons {a : StepAddr} {i : Instr} {is : List Instr} :
    holdsStraight a (i :: is) = true ↔
      decodeWord (imageWord a) = .ok i ∧ isStraight i = true ∧ holdsStraight (a + 1) is = true := by
  simp [holdsStraight, and_assoc]

theorem exists_eq_heldFlag {f : Flag} (h : f.isHeld = true) : ∃ b, f = heldFlag b := by
  cases f with
  | heldR => exact ⟨.reset, rfl⟩
  | heldH => exact ⟨.halt, rfl⟩
  | heldA => exact ⟨.aux, rfl⟩
  | drv => cases h

theorem exec_wrf_eq_writeHeld (b : Button) (v : Bool) (s : State) :
    exec (.wrf (heldFlag b) v) s = .next (s.writeHeld b v).advance := by cases b <;> rfl

theorem effect_wrf_heldFlag (s : State) (b : Button) (v : Bool) :
    effect s (.wrf (heldFlag b) v) = s.writeHeld b v := by cases b <;> rfl

theorem atReference_writeHeld {s : State} (h : AtReference s) (b : Button) (v : Bool) :
    AtReference (s.writeHeld b v) := by
  simpa [AtReference, ExecEnabled] using h

theorem atReference_effect {s : State} (h : AtReference s) (i : Instr) : AtReference (effect s i) := by
  cases i with
  | wr l v => simpa [effect, AtReference, ExecEnabled] using h
  | wrf f v =>
    cases f with
    | heldR => exact atReference_writeHeld h .reset v
    | heldH => exact atReference_writeHeld h .halt v
    | heldA => exact atReference_writeHeld h .aux v
    | drv => exact h
  | dir d => exact h
  | dly n => exact h
  | brl l c a => exact h
  | brf f c a => exact h
  | jmp a => exact h

/-- A `DLY` and the ticks that follow it. -/
theorem steps_dly {s : State} {a : StepAddr} {n : Millis} (h : AtReference s)
    (hi : decodeWord (imageWord a) = .ok (.dly n)) :
    Steps (1 + n.toNat) (s.goto a) ((s.sleep n.toNat).goto (a + 1)) := by
  obtain ⟨⟨hr, hf, ht⟩, -⟩ := id h
  have hload := steps_one ((step_of_imageWord h hi).trans (exec_dly n _))
  have hticks := steps_ticks n.toNat (s := { s with tmr := n, cs := a + 1 }) hr hf rfl
  rw [← ht] at hticks
  exact steps_trans hload hticks

/-- One operation of straight-line code, one case for each operation. -/
theorem steps_of_isStraight {s : State} {a : StepAddr} {i : Instr} (h : AtReference s)
    (hi : decodeWord (imageWord a) = .ok i) (hs : isStraight i = true) :
    Steps (stepCount i) (s.goto a) ((effect s i).goto (a + 1)) := by
  have hwf := wellFormed_of_decodeWord hi
  have hstep := step_of_imageWord h hi
  cases i with
  | wr l v =>
    have hl : l.isOutput = true := hwf
    refine steps_one (hstep.trans ((exec_wr_output hl v _).trans ?_))
    rw [effect, lineWrite_output hl]
    rfl
  | dir d => exact steps_one hstep
  | dly n => exact steps_dly h hi
  | wrf f v =>
    obtain ⟨b, rfl⟩ := exists_eq_heldFlag hwf
    refine steps_one (hstep.trans ((exec_wrf_eq_writeHeld b v _).trans ?_))
    rw [effect_wrf_heldFlag, writeHeld_eq, writeHeld_eq]
    rfl
  | brl l c t => cases hs
  | brf f c t => cases hs
  | jmp t => cases hs

/-- The operations of a listing one after the other, by induction on the listing. -/
theorem steps_of_holdsStraight (is : List Instr) {s : State} {a : StepAddr} (h : AtReference s)
    (hi : holdsStraight a is = true) :
    Steps (is.map stepCount).sum (s.goto a)
      ((is.foldl effect s).goto (a + BitVec.ofNat 7 is.length)) := by
  induction is generalizing s a with
  | nil => simpa using steps_zero (s.goto a)
  | cons i is ih =>
    obtain ⟨hdecode, hstraight, hrest⟩ := holdsStraight_cons.mp hi
    have hfirst := steps_of_isStraight h hdecode hstraight
    have hlast := ih (atReference_effect h i) hrest
    have hend : a + 1 + BitVec.ofNat 7 is.length = a + BitVec.ofNat 7 (is.length + 1) := by
      rw [BitVec.add_assoc, Nat.add_comm, BitVec.ofNat_add]
      rfl
    rw [hend] at hlast
    exact steps_trans hfirst hlast

theorem atReference_foldl_effect (is : List Instr) {s : State} (h : AtReference s) :
    AtReference (is.foldl effect s) := by
  induction is generalizing s with
  | nil => exact h
  | cons i is ih => exact ih (atReference_effect h i)

/-- Straight-line code that ends in a jump. -/
theorem steps_of_holdsStraight_jmp (is : List Instr) {s : State} {a t : StepAddr} (h : AtReference s)
    (hi : holdsStraight a is = true)
    (hj : decodeWord (imageWord (a + BitVec.ofNat 7 is.length)) = .ok (.jmp t)) :
    Steps ((is.map stepCount).sum + 1) (s.goto a) ((is.foldl effect s).goto t) :=
  steps_trans (steps_of_holdsStraight is h hi) (steps_jmp (atReference_foldl_effect is h) hj)

/-! The handlers (R112): the image's code, operation by operation, is the behaviour. -/

/-- The code of the reset sequence (R134) up to its jump. -/
def resetSequenceCode : List Instr :=
  [.wr .haltReq true, .wr .ledHalt false, .dly 100, .wr .ledRun false, .wr .pwrOk false, .dly 100,
    .wr .dcOk false, .dly 100, .wr .dcOk true, .dly 10, .wr .pwrOk true, .dly 100, .wr .ledRun true]

theorem steps_resetSequence {s : State} (h : AtReference s) :
    Steps 424 (s.goto 0x0D) (s.resetSequence.goto 0x21) :=
  steps_of_holdsStraight_jmp (a := 0x0D) resetSequenceCode h (by decide) (by decide)

theorem steps_haltToggle {s : State} (h : AtReference s) :
    Steps 4 (s.goto 0x24) (s.haltToggle.goto 0x31) := by
  have hbranch : Steps 1 (s.goto 0x24) _ :=
    steps_brl (l := .haltReq) (c := false) (t := 0x28) h (by decide) (by decide)
  unfold State.haltToggle
  cases hreq : s.lineLevel .haltReq with
  | true =>
    rw [if_neg (by simp [hreq])] at hbranch
    exact steps_trans hbranch <| steps_of_holdsStraight_jmp (a := 0x25)
      [.wr .haltReq false, .wr .ledHalt true] h (by decide) (by decide)
  | false =>
    rw [if_pos hreq] at hbranch
    exact steps_trans hbranch <| steps_of_holdsStraight_jmp (a := 0x28)
      [.wr .haltReq true, .wr .ledHalt false] h (by decide) (by decide)

theorem steps_auxToggle {s : State} (h : AtReference s) :
    Steps 4 (s.goto 0x34) (s.auxToggle.goto 0x41) := by
  have hbranch : Steps 1 (s.goto 0x34) (s.goto (if s.drv = false then 0x38 else 0x35)) :=
    steps_brf (f := .drv) (c := false) (t := 0x38) h (by decide)
  unfold State.auxToggle
  cases hdrv : s.drv with
  | true =>
    rw [if_neg (by simp [hdrv])] at hbranch
    exact steps_trans hbranch <| steps_of_holdsStraight_jmp (a := 0x35)
      [.dir false, .wr .ledAux false] h (by decide) (by decide)
  | false =>
    rw [if_pos hdrv] at hbranch
    exact steps_trans hbranch <| steps_of_holdsStraight_jmp (a := 0x38)
      [.dir true, .wr .ledAux true] h (by decide) (by decide)

theorem exists_steps_handler (b : Button) {s : State} (h : AtReference s) :
    ∃ n, Steps n (s.goto (addrHandler b)) ((s.handler b).goto (addrNext b)) := by
  cases b with
  | reset => exact ⟨424, steps_resetSequence h⟩
  | halt => exact ⟨4, steps_haltToggle h⟩
  | aux => exact ⟨4, steps_auxToggle h⟩

/-! The code of a poll, the same for each button but for its flag, line and addresses (R125). -/

theorem decode_poll (b : Button) :
    decodeWord (imageWord (addrPoll b)) = .ok (.brf (heldFlag b) true (addrRel b)) ∧
    decodeWord (imageWord (addrPoll b + 1)) = .ok (.brl b.line true (addrNext b)) ∧
    decodeWord (imageWord (addrPoll b + 2)) = .ok (.wrf (heldFlag b) true) := by
  cases b <;> decide

theorem decode_rel (b : Button) :
    decodeWord (imageWord (addrRel b)) = .ok (.brl b.line false (addrNext b)) ∧
    decodeWord (imageWord (addrRel b + 1)) = .ok (.dly 5) ∧
    decodeWord (imageWord (addrRel b + 2)) = .ok (.brl b.line false (addrNext b)) ∧
    decodeWord (imageWord (addrRel b + 3)) = .ok (.dly 5) ∧
    decodeWord (imageWord (addrRel b + 4)) = .ok (.brl b.line false (addrNext b)) ∧
    decodeWord (imageWord (addrRel b + 5)) = .ok (.wrf (heldFlag b) false) := by
  cases b <;> decide

/-! What a write to a Held bit leaves in the flags (R27, R98). -/

theorem flag_bit_injective {f g : Flag} (h : f.bit = g.bit) : f = g := by
  revert h; cases f <;> cases g <;> decide

theorem held_writeHeld (b : Button) (v : Bool) (s : State) : (s.writeHeld b v).held b = v := by
  have hbit : (heldFlag b).bit < 4 := by cases b <;> decide
  simp only [State.held, State.readFlag, writeHeld_flag, getLsbD_setBit_self _ hbit]

theorem readFlag_writeHeld_of_ne {f : Flag} {b : Button} (h : f ≠ heldFlag b) (v : Bool) (s : State) :
    (s.writeHeld b v).readFlag f = s.readFlag f := by
  simp only [State.readFlag, writeHeld_flag,
    getLsbD_setBit_ne _ fun hbit => h (flag_bit_injective hbit)]

/-! The parts of a poll. -/

/-- A poll begins by looking at the stored state (R110). -/
theorem steps_poll_of_held {b : Button} {s : State} (h : AtReference s) (hcs : s.cs = addrPoll b)
    (hheld : s.held b = true) : Steps 1 s (s.goto (addrRel b)) := by
  obtain ⟨hbrf, -, -⟩ := decode_poll b
  have hflag : s.readFlag (heldFlag b) = true := hheld
  have hstep := steps_brf h hbrf
  rwa [goto_of_cs hcs, if_pos hflag] at hstep

theorem steps_poll_of_idle {b : Button} {s : State} (h : AtReference s) (hcs : s.cs = addrPoll b)
    (hidle : s.held b = false) : Steps 1 s (s.goto (addrPoll b + 1)) := by
  obtain ⟨hbrf, -, -⟩ := decode_poll b
  have hflag : s.readFlag (heldFlag b) = false := hidle
  have hstep := steps_brf h hbrf
  rwa [goto_of_cs hcs, if_neg (ne_true_of_eq_false hflag)] at hstep

theorem steps_poll_of_idle_released {b : Button} {s : State} (h : AtReference s)
    (hcs : s.cs = addrPoll b) (hidle : s.held b = false) (hs : s.env.btn b s.now = true) :
    Steps 2 s (s.goto (addrNext b)) := by
  obtain ⟨-, hbrl, -⟩ := decode_poll b
  have hsample := steps_sample h hbrl
  rw [if_pos hs] at hsample
  exact steps_trans (steps_poll_of_idle h hcs hidle) hsample

/-- The edge is taken on the first pressed sample (R112). -/
theorem steps_poll_of_idle_pressed {b : Button} {s : State} (h : AtReference s)
    (hcs : s.cs = addrPoll b) (hidle : s.held b = false) (hs : s.env.btn b s.now = false) :
    Steps 3 s ((s.writeHeld b true).goto (addrHandler b)) := by
  obtain ⟨-, hbrl, hwrf⟩ := decode_poll b
  have hsample := steps_sample h hbrl
  rw [if_neg (ne_true_of_eq_false hs), BitVec.add_assoc] at hsample
  have hwrite := steps_of_isStraight h hwrf rfl
  have hend : addrPoll b + 2 + 1 = addrHandler b := by cases b <;> rfl
  rw [effect_wrf_heldFlag, hend] at hwrite
  exact steps_trans (steps_trans (steps_poll_of_idle h hcs hidle) hsample) hwrite

/-- The first sample of a Held button (R113, R114). -/
theorem steps_rel {b : Button} {s : State} (h : AtReference s) :
    Steps 1 (s.goto (addrRel b))
      (s.goto (if s.env.btn b s.now = false then addrNext b else addrRel b + 1)) := by
  obtain ⟨hbrl, -⟩ := decode_rel b
  exact steps_sample h hbrl

/-- A settle delay and the sample after it, at `k` words from the start of the release side (R114). -/
theorem steps_settle_sample {b : Button} {k : StepAddr} {s : State} (h : AtReference s)
    (hdly : decodeWord (imageWord (addrRel b + k)) = .ok (.dly 5))
    (hbrl : decodeWord (imageWord (addrRel b + (k + 1))) = .ok (.brl b.line false (addrNext b))) :
    Steps 7 (s.goto (addrRel b + k)) ((s.sleep 5).goto
      (if s.env.btn b (s.now + 5) = false then addrNext b else addrRel b + (k + 2))) := by
  have hsettle := steps_dly h hdly
  have hsample := steps_sample (s := s.sleep 5) h hbrl
  rw [BitVec.add_assoc] at hsettle
  rw [BitVec.add_assoc, BitVec.add_assoc] at hsample
  exact steps_trans hsettle hsample

/-- The release side up to its second sample (R114). -/
theorem steps_second_sample {b : Button} {s : State} (h : AtReference s) (hcs : s.cs = addrPoll b)
    (hheld : s.held b = true) (hs₁ : s.env.btn b s.now = true) :
    Steps 9 s ((s.sleep 5).goto
      (if s.env.btn b (s.now + 5) = false then addrNext b else addrRel b + 3)) := by
  obtain ⟨-, hdly, hbrl, -⟩ := decode_rel b
  have hrel := steps_rel (b := b) h
  rw [if_neg (ne_false_of_eq_true hs₁)] at hrel
  exact steps_trans (steps_trans (steps_poll_of_held h hcs hheld) hrel)
    (steps_settle_sample h hdly hbrl)

/-- The release side up to its third sample (R114). -/
theorem steps_third_sample {b : Button} {s : State} (h : AtReference s) (hcs : s.cs = addrPoll b)
    (hheld : s.held b = true) (hs₁ : s.env.btn b s.now = true)
    (hs₂ : s.env.btn b (s.now + 5) = true) :
    Steps 16 s ((s.sleep 10).goto
      (if s.env.btn b (s.now + 10) = false then addrNext b else addrRel b + 5)) := by
  obtain ⟨-, -, -, hdly, hbrl, -⟩ := decode_rel b
  have hsecond := steps_second_sample h hcs hheld hs₁
  rw [if_neg (ne_false_of_eq_true hs₂)] at hsecond
  exact steps_trans hsecond (steps_settle_sample (s := s.sleep 5) h hdly hbrl)

/-- Three released samples: the button is Idle (R116). -/
theorem steps_confirmed {b : Button} {s : State} (h : AtReference s) (hcs : s.cs = addrPoll b)
    (hheld : s.held b = true) (hs₁ : s.env.btn b s.now = true)
    (hs₂ : s.env.btn b (s.now + 5) = true) (hs₃ : s.env.btn b (s.now + 10) = true) :
    Steps 17 s (((s.sleep 10).writeHeld b false).goto (addrNext b)) := by
  obtain ⟨-, -, -, -, -, hwrf⟩ := decode_rel b
  have hthird := steps_third_sample h hcs hheld hs₁ hs₂
  rw [if_neg (ne_false_of_eq_true hs₃)] at hthird
  have hwrite := steps_of_isStraight (s := s.sleep 10) h hwrf rfl
  have hend : addrRel b + 5 + 1 = addrNext b := by cases b <;> rfl
  rw [effect_wrf_heldFlag, hend] at hwrite
  exact steps_trans hthird hwrite

/-- Settles O52: the flag is clear, so the one sample decides; a pressed one leads through the write of
the Held bit into the handler, whose code is its behaviour. -/
theorem idlePollTakesThePressEdge : Obligations.IdlePollTakesThePressEdge := by
  unfold Obligations.IdlePollTakesThePressEdge
  intro b s h hcs hidle
  refine ⟨steps_poll_of_idle_released h hcs hidle, fun hpressed => ?_⟩
  obtain ⟨n, hhandler⟩ := exists_steps_handler b
    (s := (s.writeHeld b true).goto (addrHandler b)) (atReference_writeHeld h b true)
  refine ⟨_, n, steps_poll_of_idle_pressed h hcs hidle hpressed, ?edge, held_writeHeld b true s,
    fun f hf => readFlag_writeHeld_of_ne hf true s, hhandler⟩
  case edge =>
    rw [writeHeld_eq, hidle]
    rfl

/-- Settles O53: each sample that reads pressed ends the poll where it is taken; past the third, the
write of the Held bit clears it without an edge. -/
theorem heldPollConfirmsTheRelease : Obligations.HeldPollConfirmsTheRelease := by
  unfold Obligations.HeldPollConfirmsTheRelease
  intro b s h hcs hheld
  refine ⟨fun hs₁ => ?first, fun hs₁ hs₂ => ?second, fun hs₁ hs₂ hs₃ => ?third,
    fun hs₁ hs₂ hs₃ => ⟨_, steps_confirmed h hcs hheld hs₁ hs₂ hs₃, ?frame,
      held_writeHeld b false _, fun f hf => readFlag_writeHeld_of_ne hf false _⟩⟩
  case first =>
    have hrel := steps_rel (b := b) h
    rw [if_pos hs₁] at hrel
    exact steps_trans (steps_poll_of_held h hcs hheld) hrel
  case second =>
    have hsecond := steps_second_sample h hcs hheld hs₁
    rwa [if_pos hs₂] at hsecond
  case third =>
    have hthird := steps_third_sample h hcs hheld hs₁ hs₂
    rwa [if_pos hs₃] at hthird
  case frame =>
    rw [writeHeld_eq]
    rfl

end Sys2Proof.Proofs

/-! PROOFS for the bus power sequencer (spec/42_bus_power_sequencer.md): the reset sequence R134 and the
halt/resume toggle R138, run from the reference image. -/

namespace Sys2Proof.Proofs

open Sys2Proof.Machine Sys2Proof.Laws

/-- A bit of the latch after a write to an output line (R24, R55). -/
theorem getLsbD_out_lineWrite {l : Line} (h : l.isOutput = true) (v : Bool) (s : State) (k : Nat) :
    (s.lineWrite l v).out.getLsbD k = if k = l.id.toNat - 3 then v else s.out.getLsbD k := by
  obtain ⟨-, hle⟩ := (isOutput_iff_id l).mp h
  have hwidth : l.id.toNat - 3 < 6 := by omega
  rw [lineWrite_output h]
  split
  next hk => rw [hk, getLsbD_setBit_self _ hwidth]
  next hk => exact getLsbD_setBit_ne _ hk v

/-- All that the reset sequence does but for the latch: 410 ms and eight events (R134). -/
theorem resetSequence_frame (s : State) :
    s.resetSequence = { s with
      now := s.now + 410
      out := s.resetSequence.out
      tr := s.tr ++ [⟨s.now, .wr .haltReq true⟩, ⟨s.now, .wr .ledHalt false⟩,
        ⟨s.now + 100, .wr .ledRun false⟩, ⟨s.now + 100, .wr .pwrOk false⟩,
        ⟨s.now + 200, .wr .dcOk false⟩, ⟨s.now + 300, .wr .dcOk true⟩,
        ⟨s.now + 310, .wr .pwrOk true⟩, ⟨s.now + 410, .wr .ledRun true⟩] } := by
  simp (disch := decide) [State.resetSequence, lineWrite_output, State.sleep, Config.tRstPre,
    Config.tRstPwr, Config.tRstDc, Config.tDcPwr, Config.tPwrRun]

/-- The reset sequence leaves the bus in the running state, `led-aux` as it was (R134): the last write
to a bit decides it. -/
theorem getLsbD_out_resetSequence (s : State) (k : Nat) :
    s.resetSequence.out.getLsbD k = if k ≤ 3 then true else if k = 4 then false else
      s.out.getLsbD k := by
  simp (disch := decide) only [State.resetSequence, sleep_out, getLsbD_out_lineWrite, Line.id,
    BitVec.reduceToNat, Nat.reduceSub]
  grind

/-- The halt/resume toggle without its branch: the line gets the opposite of its latch bit, the LED the
bit itself (R138). -/
theorem haltToggle_eq (s : State) :
    s.haltToggle =
      (s.lineWrite .haltReq (!s.out.getLsbD 2)).lineWrite .ledHalt (s.out.getLsbD 2) := by
  have hlevel : s.lineLevel .haltReq = s.out.getLsbD 2 := lineLevel_output rfl s
  unfold State.haltToggle
  rw [hlevel]
  cases s.out.getLsbD 2 <;> rfl

/-- All that the toggle does but for the latch: two events, in no model time (R138). -/
theorem haltToggle_frame (s : State) :
    s.haltToggle = { s with
      out := s.haltToggle.out
      tr := s.tr ++ [⟨s.now, .wr .haltReq (!s.out.getLsbD 2)⟩,
        ⟨s.now, .wr .ledHalt (s.out.getLsbD 2)⟩] } := by
  simp (disch := decide) [haltToggle_eq, lineWrite_output]

/-- The latch after the toggle (R138). -/
theorem getLsbD_out_haltToggle (s : State) (k : Nat) :
    s.haltToggle.out.getLsbD k =
      if k = 4 then s.out.getLsbD 2 else if k = 2 then !s.out.getLsbD 2 else s.out.getLsbD k := by
  rw [haltToggle_eq, getLsbD_out_lineWrite rfl, getLsbD_out_lineWrite rfl]
  rfl

/-- Settles O49: the code of the sequence is its behaviour, which is 410 ms, eight events and the bits
of the running state. -/
theorem resetSequenceRuns : Obligations.ResetSequenceRuns := by
  unfold Obligations.ResetSequenceRuns
  intro s h hcs
  have hrun := steps_resetSequence h
  have hframe := resetSequence_frame s
  have hbits := getLsbD_out_resetSequence s
  rw [goto_of_cs hcs] at hrun
  generalize s.resetSequence = u at hrun hframe hbits
  exact ⟨u.goto 0x21, hrun, congrArg (State.goto 0x21) hframe,
    hbits 0, hbits 1, hbits 2, hbits 3, hbits 4, hbits 5⟩

/-- Settles O50: either branch of the code is the behaviour, which inverts one bit of the latch and
copies what it was to another. -/
theorem haltToggleRuns : Obligations.HaltToggleRuns := by
  unfold Obligations.HaltToggleRuns
  intro s h hcs
  have hrun := steps_haltToggle h
  have hframe := haltToggle_frame s
  have hbits := getLsbD_out_haltToggle s
  rw [goto_of_cs hcs] at hrun
  generalize s.haltToggle = u at hrun hframe hbits
  refine ⟨u.goto 0x31, hrun, congrArg (State.goto 0x31) hframe, hbits 2, hbits 4,
    fun k hk2 hk4 => ?rest⟩
  case rest => rw [goto_out, hbits, if_neg hk4, if_neg hk2]

end Sys2Proof.Proofs

/-! PROOFS for the auxiliary clock toggle (spec/43_aux_clock_toggle.md): the toggle R150, run from the
reference image. -/

namespace Sys2Proof.Proofs

open Sys2Proof.Machine Sys2Proof.Laws

/-- The toggle without its branch: the direction and the LED both get the opposite of the mode (R150). -/
theorem auxToggle_eq (s : State) :
    s.auxToggle = (s.setDir (!s.drv)).lineWrite .ledAux (!s.drv) := by
  unfold State.auxToggle
  cases s.drv <;> rfl

/-- All that the toggle does but for the latch and the flags: two events, the direction's first, in no
model time (R150). -/
theorem auxToggle_frame (s : State) :
    s.auxToggle = { s with
      out := s.auxToggle.out
      flag := s.auxToggle.flag
      tr := s.tr ++ [⟨s.now, .dir (!s.drv)⟩, ⟨s.now, .wr .ledAux (!s.drv)⟩] } := by
  simp (disch := decide) [auxToggle_eq, lineWrite_output, setDir_eq]

/-- A flag after the toggle: only `DRV` is written (R150). -/
theorem getLsbD_flag_auxToggle (s : State) (k : Nat) :
    s.auxToggle.flag.getLsbD k = if k = 3 then !s.drv else s.flag.getLsbD k := by
  rw [auxToggle_eq, lineWrite_flag, setDir_flag]
  split
  next hk => rw [hk, getLsbD_setBit_self _ (by decide)]
  next hk => exact getLsbD_setBit_ne _ hk _

/-- The latch after the toggle: only the bit of `led-aux` is written (R150). -/
theorem getLsbD_out_auxToggle (s : State) (k : Nat) :
    s.auxToggle.out.getLsbD k = if k = 5 then !s.drv else s.out.getLsbD k := by
  rw [auxToggle_eq, getLsbD_out_lineWrite rfl]
  rfl

/-- Settles O51: either branch of the code is the behaviour, which inverts `DRV` and copies what it
became to one bit of the latch. -/
theorem auxToggleRuns : Obligations.AuxToggleRuns := by
  unfold Obligations.AuxToggleRuns
  intro s h hcs
  have hrun := steps_auxToggle h
  have hframe := auxToggle_frame s
  have hflags := getLsbD_flag_auxToggle s
  have hbits := getLsbD_out_auxToggle s
  rw [goto_of_cs hcs] at hrun
  generalize s.auxToggle = u at hrun hframe hflags hbits
  refine ⟨u.goto 0x41, hrun, congrArg (State.goto 0x41) hframe, hflags 3, hbits 5,
    fun k hk => ?flags, fun k hk => ?latch⟩
  case flags => rw [goto_flag, hflags, if_neg hk]
  case latch => rw [goto_out, hbits, if_neg hk]

end Sys2Proof.Proofs

/-! PROOFS for the main control loop (spec/44_main_control_loop.md): the contents of the step store R171. -/

namespace Sys2Proof.Proofs

open Sys2Proof.Machine

/-- Words assembled from well-formed operations decode to them, in order (R74). -/
theorem map_decodeWord_map_encode {is : List Instr} (h : ∀ i ∈ is, i.wellFormed = true) :
    (is.map encode).map decodeWord = is.map Except.ok := by
  rw [List.map_map]
  exact List.map_congr_left fun i hi => decodeWord_encode (h i hi)

/-- The image's words at 0x00..0x42 are those of the hex dump (R171). -/
theorem map_imageWord_range :
    (List.range 0x43).map (fun k => imageWord (BitVec.ofNat 7 k)) = romWords := by decide

/-- If the image's words are a listing's, the store at reset decodes to that listing. -/
theorem map_decodeWord_readWord_reset {is : List Instr} (hwf : ∀ i ∈ is, i.wellFormed = true)
    (hwords : romWords = is.map encode) :
    (List.range 0x43).map (fun k => decodeWord (State.reset.rom.readWord (BitVec.ofNat 7 k))) =
      is.map Except.ok := by
  rw [← map_decodeWord_map_encode hwf, ← hwords, ← map_imageWord_range, List.map_map]
  exact List.map_congr_left fun k _ => congrArg decodeWord (readWord_reset (BitVec.ofNat 7 k))

/-- Settles O35: the listing's operations are well-formed and assemble to the hex dump, so the dump
decodes to them; past its 67 words the image is zero. -/
theorem referenceImageIsTheListing : Obligations.ReferenceImageIsTheListing := by
  unfold Obligations.ReferenceImageIsTheListing
  refine ⟨map_decodeWord_readWord_reset (by decide) (by decide), fun a ha => ?unused⟩
  case unused => rw [readWord_reset, imageWord_of_unused ha]

end Sys2Proof.Proofs

/-! PROOFS for the exceptions (spec/60_exceptions.md): what raises ILLEGAL_STEP, its cause code and
faulting address R181. -/

namespace Sys2Proof.Proofs

open Sys2Proof.Machine Sys2Proof.Laws

/-! The cause code and the faulting address are read off `FAULT` and `CS` (R181). -/

theorem causeCode_of_fault {s : State} (h : s.fault = true) : s.causeCode = 1 := if_pos h

theorem causeCode_of_no_fault {s : State} (h : s.fault = false) : s.causeCode = 0 :=
  if_neg (ne_true_of_eq_false h)

theorem faultAddr_of_fault {s : State} (h : s.fault = true) : s.faultAddr = some s.cs := if_pos h

/-- No operation that a word can spell writes `FAULT` (R93 to R99); an ill-formed term does (log 5). -/
theorem exec_fault {i : Instr} {s t : State} (hwf : i.wellFormed = true) (h : exec i s = .next t) :
    t.fault = s.fault := by
  cases i with
  | wr l v =>
    cases (exec_wr_output hwf v s).symm.trans h
    rfl
  | dir d =>
    cases (exec_dir d s).symm.trans h
    rfl
  | dly n =>
    cases (exec_dly n s).symm.trans h
    rfl
  | brl l c a =>
    cases (exec_brl l c a s).symm.trans h
    exact noteRead_fault l s
  | brf f c a =>
    cases (exec_brf f c a s).symm.trans h
    rfl
  | wrf f v =>
    obtain ⟨b, rfl⟩ := exists_eq_heldFlag hwf
    cases (exec_wrf_heldFlag b v s).symm.trans h
    rfl
  | jmp a =>
    cases (exec_jmp a s).symm.trans h
    rfl

/-- How a step from an unfaulted state ends: an exec step at a reserved word takes ILLEGAL_STEP, and
every other step (reset, tick, an exec step at a word that decodes) ends without fault. -/
theorem step_cases_of_no_fault {s t : State} (hf : s.fault = false) (h : step s = .next t) :
    (ExecEnabled s ∧ (∃ r, decodeWord (s.rom.readWord s.cs) = .error r) ∧ t = s.illegalStep) ∨
    (t.fault = false ∧ (ExecEnabled s → ∃ i, decodeWord (s.rom.readWord s.cs) = .ok i)) := by
  simp only [← fetch_eq_decodeWord]
  obtain ⟨hr, he⟩ | ⟨-, hf', -⟩ | ⟨-, -, ht, he⟩ | ⟨hexec, r, hi, he⟩ | ⟨-, i, hi, he⟩ := step_cases s
  · cases he.symm.trans h
    exact .inr ⟨hardReset_fault s, fun ⟨hr', _, _⟩ => absurd (hr.symm.trans hr') Bool.false_ne_true⟩
  · exact absurd (hf.symm.trans hf') Bool.false_ne_true
  · cases he.symm.trans h
    exact .inr ⟨(tick_fault s).trans hf, fun ⟨_, _, ht'⟩ => absurd ht' ht⟩
  · cases he.symm.trans h
    exact .inl ⟨hexec, ⟨r, hi⟩, rfl⟩
  · have hwf := wellFormed_of_decodeWord ((fetch_eq_decodeWord s).symm.trans hi)
    exact .inr ⟨(exec_fault hwf (he.symm.trans h)).trans hf, fun _ => ⟨i, hi⟩⟩

/-- Settles O21: the two ways a step from an unfaulted state ends, told apart by the decoder. -/
theorem faultIsRaisedByReservedWordsOnly : Obligations.FaultIsRaisedByReservedWordsOnly := by
  unfold Obligations.FaultIsRaisedByReservedWordsOnly
  intro s t hf h
  obtain ⟨hexec, hreserved, rfl⟩ | ⟨ht, hdecodes⟩ := step_cases_of_no_fault hf h
  case inl =>
    have hfault := illegalStep_fault s
    exact ⟨⟨fun _ => ⟨hexec, hreserved⟩, fun _ => hfault⟩,
      fun _ => ⟨causeCode_of_fault hfault, faultAddr_of_fault hfault, illegalStep_cs s⟩,
      causeCode_of_no_fault⟩
  case inr =>
    have hnot : t.fault ≠ true := ne_true_of_eq_false ht
    refine ⟨⟨fun hfault => absurd hfault hnot, ?_⟩, fun hfault => absurd hfault hnot,
      causeCode_of_no_fault⟩
    rintro ⟨hexec, r, hr⟩
    obtain ⟨i, hi⟩ := hdecodes hexec
    cases hr.symm.trans hi

end Sys2Proof.Proofs

/-! PROOFS for the reset rules (spec/70_reset_and_hazards.md): hardware reset R200. -/

namespace Sys2Proof.Proofs

open Sys2Proof.Machine Sys2Proof.Laws

/-- A hardware reset reaches the reset values from every state; nothing is asked of `s` (R39, R200). -/
theorem atResetValues_hardReset (s : State) : AtResetValues s.hardReset :=
  ⟨hardReset_cs s, hardReset_tmr s, hardReset_out s, hardReset_flag s, hardReset_fault s,
    hardReset_now s, hardReset_tr s⟩

/-! The pin (R21). Asserting it does the reset without a step; releasing it changes no register. -/

/-- Asserting the pin gives the state of a hardware reset, but for the environment. -/
theorem atResetValues_driveRst_false (s : State) : AtResetValues (s.driveRst false) :=
  atResetValues_hardReset s

theorem driveRst_false_rstN (s : State) : (s.driveRst false).env.rstN = false :=
  congrArg Env.rstN (driveRst_false_env s)

theorem atResetValues_driveRst_true {s : State} (h : AtResetValues s) :
    AtResetValues (s.driveRst true) := by
  simpa only [AtResetValues, driveRst_true_cs, driveRst_true_tmr, driveRst_true_out,
    driveRst_true_flag, driveRst_true_fault, driveRst_true_now, driveRst_true_tr] using h

/-- The reset values hold neither a fault nor a running delay, so the released block executes. -/
theorem execEnabled_driveRst_true {s : State} (h : AtResetValues s) :
    ExecEnabled (s.driveRst true) := by
  obtain ⟨-, htmr, -, -, hfault, -, -⟩ := atResetValues_driveRst_true h
  exact ⟨congrArg Env.rstN (driveRst_true_env s), hfault, htmr⟩

/-- While the pin is asserted a step keeps the registers reset and the pin as it is (R186, R200). -/
theorem step_of_rst_asserted {s : State} (h : s.env.rstN = false) :
    ∃ t, step s = .next t ∧ AtResetValues t ∧ t.env.rstN = false ∧ SameStore s t :=
  have hpin : s.hardReset.env.rstN = false :=
    (congrArg Env.rstN (hardReset_env s)).trans ((afterReset_rstN s.env).trans h)
  ⟨s.hardReset, step_of_reset h, atResetValues_hardReset s, hpin,
    sameStore_of_rom_eq (hardReset_rom s)⟩

/-- After a reset the first word fetched is the one at 0x00 (R91, R200). -/
theorem fetch_driveRst_true {s : State} (h : AtResetValues s) :
    (s.driveRst true).fetch = decodeWord (s.rom.readWord 0x00) := by
  obtain ⟨hcs, -⟩ := atResetValues_driveRst_true h
  rw [fetch_eq_decodeWord, hcs, driveRst_true_rom]

/-- Settles O23: asserting the pin, a step under it, and releasing it. The release starts from any state
at the reset values, so from the one right after assertion too. -/
theorem hardwareResetRestoresResetValues : Obligations.HardwareResetRestoresResetValues := by
  unfold Obligations.HardwareResetRestoresResetValues
  refine ⟨fun s => ?asserting, fun s => step_of_rst_asserted, fun s h => ?releasing⟩
  case asserting =>
    exact ⟨atResetValues_driveRst_false s, driveRst_false_rstN s,
      sameStore_of_rom_eq (driveRst_false_rom s)⟩
  case releasing =>
    have hexec := execEnabled_driveRst_true h
    exact ⟨atResetValues_driveRst_true h, hexec, sameStore_of_rom_eq (driveRst_true_rom s),
      fun i hi => step_of_fetch hexec ((fetch_driveRst_true h).trans hi)⟩

end Sys2Proof.Proofs

/-! PROOFS for the encoding rules (spec/30_encoding.md), continued: the two round trips R74, the reserved
words R76, the worked examples R81. -/

namespace Sys2Proof.Proofs

open Sys2Proof.Machine Sys2Proof.Laws

/-! The round trips. -/

/-- The bytes of a word, in image order, make the word. -/
theorem decode_wordBytes_append (w : Word) (rest : List Byte) :
    decode (wordBytes w ++ rest) = (decodeWord w).map (·, rest) := by
  have hword : w.extractLsb' 8 8 ++ w.extractLsb' 0 8 = w := BitVec.extractLsb'_append_extractLsb'
  show decode (w.extractLsb' 0 8 :: w.extractLsb' 8 8 :: rest) = _
  rw [decode_two, hword]

/-- Settles O3: the word of a well-formed instruction spells it, and its two bytes make that word. -/
theorem decodeOfEncodeIsTheInstruction : Obligations.DecodeOfEncodeIsTheInstruction := by
  unfold Obligations.DecodeOfEncodeIsTheInstruction
  intro i hwf
  have hdecode := decodeWord_encode hwf
  refine ⟨hdecode, fun rest => ?_⟩
  rw [encodeBytes, decode_wordBytes_append, hdecode]
  rfl

theorem valueArg_of_fields {w : Word} (harg : argHighField w = 0) :
    valueArg (valueField w) = argField w := by
  rw [← argHighField_append_valueField, harg]
  rfl

/-- An instruction's word has no bit but those that the fields spell: the converse of `spells_encode`. -/
theorem encode_of_spells {w : Word} {i : Instr} (h : Spells w i) : encode i = w := by
  have hword := formatS_fields w
  cases i with
  | wr l v =>
    obtain ⟨hop, hsel, -, harg, rfl⟩ := h
    rwa [← valueArg_of_fields harg, hop, hsel] at hword
  | dir d =>
    obtain ⟨hop, hsel, harg, rfl⟩ := h
    rwa [← valueArg_of_fields harg, hop, hsel] at hword
  | dly n =>
    obtain ⟨hop, rfl⟩ := h
    have hsplit : opField w ++ delayField w = w := BitVec.extractLsb'_append_extractLsb'
    rwa [hop] at hsplit
  | brl l c a =>
    obtain ⟨hop, hsel, rfl, rfl⟩ := h
    rwa [← senseField_append_targetField, hop, hsel] at hword
  | brf f c a =>
    obtain ⟨hop, hsel, rfl, rfl⟩ := h
    rwa [← senseField_append_targetField, hop, hsel] at hword
  | wrf f v =>
    obtain ⟨hop, hsel, -, harg, rfl⟩ := h
    rwa [← valueArg_of_fields harg, hop, hsel] at hword
  | jmp a =>
    obtain ⟨hop, hsel, hsense, rfl⟩ := h
    rwa [← senseField_append_targetField, hop, hsel, hsense] at hword

/-- Settles O4: what the decoder accepts is spelled by the fields, so nothing of the word is lost. -/
theorem encodeOfDecodeIsTheWord : Obligations.EncodeOfDecodeIsTheWord :=
  fun _ _ h => ⟨wellFormed_of_decodeWord h, encode_of_spells (spells_of_decodeWord h)⟩

/-! Reserved words (R76). -/

/-- A mask that looks at no bit of `op` finds zeros in the selector and in the argument. -/
theorem and_formatS_eq_zero_iff (w : Word) (selMask : BitVec 4) (argMask : BitVec 8) :
    w &&& formatS 0 selMask argMask = 0 ↔
      selField w &&& selMask = 0 ∧ argField w &&& argMask = 0 := by
  have hzero : (0 : Word) = formatS 0 0 0 := rfl
  nth_rw 1 [← formatS_fields w]
  rw [formatS_and, hzero, formatS_eq_formatS_iff]
  simp

/-- The must-be-zero bits of `DIR`, tested in the word. -/
theorem and_0FFE_eq_zero_iff (w : Word) :
    w &&& 0x0FFE = 0 ↔ selField w = 0 ∧ argHighField w = 0 := by
  refine (and_formatS_eq_zero_iff w (BitVec.allOnes 4) 0xFE).trans ?_
  rw [BitVec.and_allOnes, argField_and_high_eq_zero_iff]

/-- The must-be-zero bits of `JMP`, tested in the word. -/
theorem and_0F80_eq_zero_iff (w : Word) :
    w &&& 0x0F80 = 0 ↔ selField w = 0 ∧ senseField w = false := by
  refine (and_formatS_eq_zero_iff w (BitVec.allOnes 4) 0x80).trans ?_
  rw [BitVec.and_allOnes, argField_and_sense_eq_zero_iff]

/-- Which words are operations: for each `op`, its selectors and its must-be-zero bits (R74). -/
theorem exists_decodeWord_eq_ok_iff (w : Word) :
    (∃ i, decodeWord w = .ok i) ↔
      (opField w = 1 ∧ (3 ≤ (selField w).toNat ∧ (selField w).toNat ≤ 8) ∧ w &&& 0x00FE = 0) ∨
      (opField w = 2 ∧ w &&& 0x0FFE = 0) ∨ opField w = 3 ∨
      (opField w = 4 ∧ (selField w).toNat ≤ 9) ∨ (opField w = 5 ∧ (selField w).toNat ≤ 3) ∨
      (opField w = 6 ∧ (selField w).toNat ≤ 2 ∧ w &&& 0x00FE = 0) ∨
      (opField w = 7 ∧ w &&& 0x0F80 = 0) := by
  simp only [decodeWord_eq_ok_iff, and_00FE_eq_zero_iff, and_0FFE_eq_zero_iff, and_0F80_eq_zero_iff,
    ← exists_outputLine_id_iff, ← exists_line_id_iff, ← exists_flag_id_iff, ← exists_heldFlag_id_iff]
  constructor
  · rintro ⟨i, h⟩
    cases i with
    | wr l v =>
      obtain ⟨hop, hsel, hl, harg, -⟩ := h
      exact .inl ⟨hop, ⟨l, hsel, hl⟩, harg⟩
    | dir d =>
      obtain ⟨hop, hsel, harg, -⟩ := h
      exact .inr (.inl ⟨hop, hsel, harg⟩)
    | dly n => exact .inr (.inr (.inl h.1))
    | brl l c a =>
      obtain ⟨hop, hsel, -, -⟩ := h
      exact .inr (.inr (.inr (.inl ⟨hop, l, hsel⟩)))
    | brf f c a =>
      obtain ⟨hop, hsel, -, -⟩ := h
      exact .inr (.inr (.inr (.inr (.inl ⟨hop, f, hsel⟩))))
    | wrf f v =>
      obtain ⟨hop, hsel, hf, harg, -⟩ := h
      exact .inr (.inr (.inr (.inr (.inr (.inl ⟨hop, ⟨f, hsel, hf⟩, harg⟩)))))
    | jmp a =>
      obtain ⟨hop, hsel, hsense, -⟩ := h
      exact .inr (.inr (.inr (.inr (.inr (.inr ⟨hop, hsel, hsense⟩)))))
  · rintro (⟨hop, ⟨l, hsel, hl⟩, harg⟩ | ⟨hop, hsel, harg⟩ | hop | ⟨hop, l, hsel⟩ | ⟨hop, f, hsel⟩ |
      ⟨hop, ⟨f, hsel, hf⟩, harg⟩ | ⟨hop, hsel, hsense⟩)
    · exact ⟨.wr l _, hop, hsel, hl, harg, rfl⟩
    · exact ⟨.dir _, hop, hsel, harg, rfl⟩
    · exact ⟨.dly _, hop, rfl⟩
    · exact ⟨.brl l _ _, hop, hsel, rfl, rfl⟩
    · exact ⟨.brf f _ _, hop, hsel, rfl, rfl⟩
    · exact ⟨.wrf f _, hop, hsel, hf, harg, rfl⟩
    · exact ⟨.jmp _, hop, hsel, hsense, rfl⟩

theorem exists_error_iff_not_exists_ok (x : Except Reserved Instr) :
    (∃ r, x = .error r) ↔ ¬ ∃ i, x = .ok i := by
  cases x <;> simp

/-- Settles O2: a word is reserved when it is none of the operations; `op` and the selector are then
compared as numbers. -/
theorem reservedWordsAreTheListed : Obligations.ReservedWordsAreTheListed := by
  unfold Obligations.ReservedWordsAreTheListed
  intro w
  have hop (k : BitVec 4) : opField w = k ↔ (opField w).toNat = k.toNat := BitVec.toNat_inj.symm
  have hlt : (opField w).toNat < 16 := (opField w).isLt
  rw [exists_error_iff_not_exists_ok, exists_decodeWord_eq_ok_iff, ushiftRight_toNat_eq_opField,
    shiftRight_and_toNat_eq_selField]
  simp only [hop, BitVec.reduceToNat]
  clear hop
  generalize (opField w).toNat = op at hlt ⊢
  interval_cases op <;> grind

/-- Settles O5: the decoder evaluated on each word. -/
theorem workedEncodingsDecode : Obligations.WorkedEncodingsDecode := by
  unfold Obligations.WorkedEncodingsDecode
  refine ⟨rfl, rfl, rfl, rfl, rfl, rfl, rfl, rfl, rfl, rfl, rfl, fun w hw => ?reserved⟩
  case reserved => fin_cases hw <;> exact ⟨_, rfl⟩

end Sys2Proof.Proofs

/-! PROOFS for the memory rules (spec/20_memory.md), continued: the canonical form of the step store and
words put into it (R57, log 3), and the word at `CS` (log 7). -/

namespace Sys2Proof.Proofs

open Sys2Proof.Machine Sys2Proof.Laws

/-- A canonical store lists no byte equal to the image's, so what it reads as tells what it lists. -/
theorem find_ne_imageByte {m : Memory} {lo a : Nat} {v : Byte} (h : Memory.wfFrom lo m = true)
    (hv : Memory.find m a = some v) : v ≠ imageByte (BitVec.ofNat 8 a) := by
  induction m generalizing lo with
  | nil => cases hv
  | cons p rest ih =>
    obtain ⟨k, x⟩ := p
    obtain ⟨-, -, hne, hrest⟩ := wfFrom_cons.mp h
    by_cases hk : k = a
    · subst hk
      simp only [Memory.find, if_true, Option.some.injEq] at hv
      exact hv ▸ hne
    · simp only [Memory.find, hk, if_false] at hv
      exact ih hrest hv

/-- Nothing is listed outside the store. -/
theorem find_of_ge {m : Memory} {lo a : Nat} (h : Memory.wfFrom lo m = true) (ha : 256 ≤ a) :
    Memory.find m a = none := by
  induction m generalizing lo with
  | nil => rfl
  | cons p rest ih =>
    obtain ⟨k, x⟩ := p
    obtain ⟨-, hk, -, hrest⟩ := wfFrom_cons.mp h
    have hne : k ≠ a := by omega
    simp only [Memory.find, hne, if_false]
    exact ih hrest

/-- Canonical stores that read alike list alike. -/
theorem find_eq_of_readByte_eq {m m' : Memory} (h : m.wf = true) (h' : m'.wf = true)
    (hread : ∀ a : BitVec 8, m.readByte a = m'.readByte a) (a : Nat) :
    Memory.find m a = Memory.find m' a := by
  by_cases ha : a < 256
  · have hbyte := hread (BitVec.ofNat 8 a)
    simp only [Memory.readByte, BitVec.toNat_ofNat, Nat.mod_eq_of_lt ha] at hbyte
    cases hv : Memory.find m a <;> cases hv' : Memory.find m' a
    case none.none => rfl
    case none.some v' =>
      simp only [hv, hv', Option.getD_none, Option.getD_some] at hbyte
      exact absurd hbyte.symm (find_ne_imageByte h' hv')
    case some.none v =>
      simp only [hv, hv', Option.getD_none, Option.getD_some] at hbyte
      exact absurd hbyte (find_ne_imageByte h hv)
    case some.some v v' =>
      simpa only [hv, hv', Option.getD_some, Option.some.injEq] using hbyte
  · have hge : 256 ≤ a := by omega
    rw [find_of_ge h hge, find_of_ge h' hge]

/-- Strictly rising lists that list alike are equal: each begins with the least address listed. -/
theorem eq_of_find_eq {m m' : Memory} {lo : Nat} (h : Memory.wfFrom lo m = true)
    (h' : Memory.wfFrom lo m' = true) (hfind : ∀ a, Memory.find m a = Memory.find m' a) : m = m' := by
  induction m generalizing lo m' with
  | nil =>
    cases m' with
    | nil => rfl
    | cons p' rest' => simpa [Memory.find] using hfind p'.1
  | cons p rest ih =>
    cases m' with
    | nil => simpa [Memory.find] using hfind p.1
    | cons p' rest' =>
      obtain ⟨k, v⟩ := p
      obtain ⟨k', v'⟩ := p'
      obtain ⟨-, -, -, hrest⟩ := wfFrom_cons.mp h
      obtain ⟨-, -, -, hrest'⟩ := wfFrom_cons.mp h'
      have hk := hfind k
      have hk' := hfind k'
      obtain hlt | rfl | hlt := Nat.lt_trichotomy k k'
      · simp [Memory.find, hlt.ne', find_of_lt hrest' (Nat.lt_succ_of_lt hlt)] at hk
      · obtain rfl : v = v' := by simpa [Memory.find] using hk
        congr 1
        refine ih hrest hrest' fun a => ?_
        by_cases ha : k = a
        · subst ha
          rw [find_of_lt hrest k.lt_succ_self, find_of_lt hrest' k.lt_succ_self]
        · simpa [Memory.find, ha] using hfind a
      · simp [Memory.find, hlt.ne', find_of_lt hrest (Nat.lt_succ_of_lt hlt)] at hk'

/-- Settles O27: stores that read alike list alike, and the order of the list is fixed. -/
theorem canonicalStoresReadingAlikeAreEqual : Obligations.CanonicalStoresReadingAlikeAreEqual :=
  fun _ _ h h' hread => eq_of_find_eq h h' (find_eq_of_readByte_eq h h' hread)

/-! A word put at a step address (R57): its two bytes lie at addresses of their own. -/

theorem lowByteAddr_inj {a c : StepAddr} : lowByteAddr c = lowByteAddr a ↔ c = a :=
  append_eq_append_iff.trans (and_iff_left rfl)

theorem highByteAddr_inj {a c : StepAddr} : highByteAddr c = highByteAddr a ↔ c = a :=
  append_eq_append_iff.trans (and_iff_left rfl)

theorem lowByteAddr_ne_highByteAddr (a c : StepAddr) : lowByteAddr c ≠ highByteAddr a := fun h =>
  absurd (append_eq_append_iff.mp h).2 (by decide)

theorem readByte_low_writeWord {m : Memory} (h : m.wf = true) (a c : StepAddr) (w : Word) :
    (m.writeWord a w).readByte (lowByteAddr c) =
      if c = a then w.extractLsb' 0 8 else m.readByte (lowByteAddr c) := by
  rw [Memory.writeWord, readByte_writeByte (writeByte_wf h _ _),
    if_neg (lowByteAddr_ne_highByteAddr a c), readByte_writeByte h]
  simp only [lowByteAddr_inj]

theorem readByte_high_writeWord {m : Memory} (h : m.wf = true) (a c : StepAddr) (w : Word) :
    (m.writeWord a w).readByte (highByteAddr c) =
      if c = a then w.extractLsb' 8 8 else m.readByte (highByteAddr c) := by
  rw [Memory.writeWord, readByte_writeByte (writeByte_wf h _ _), readByte_writeByte h,
    if_neg (lowByteAddr_ne_highByteAddr c a).symm]
  simp only [highByteAddr_inj]

theorem readWord_writeWord {m : Memory} (h : m.wf = true) (a c : StepAddr) (w : Word) :
    (m.writeWord a w).readWord c = if c = a then w else m.readWord c := by
  rw [Memory.readWord, readByte_high_writeWord h, readByte_low_writeWord h]
  split
  · exact BitVec.extractLsb'_append_extractLsb'
  · rfl

/-- Settles O28: byte by byte. -/
theorem writtenWordReadsBack : Obligations.WrittenWordReadsBack :=
  fun _ a c w h => readWord_writeWord h a c w

/-! The word at `CS` (log 7). -/

theorem decodeTableWord_eq_some_iff {nbits w : Nat} {i : Instr} :
    decodeTableWord nbits w = some i ↔ decodeWord (tableWord nbits w) = .ok i := by
  have hbytes : decode (wordBytes (tableWord nbits w)) = (decodeWord (tableWord nbits w)).map (·, []) := by
    simpa using decode_wordBytes_append (tableWord nbits w) []
  unfold decodeTableWord
  rw [hbytes]
  cases decodeWord (tableWord nbits w) <;> simp [Except.map]

/-- Settles O19: the next step is an exec step, and the word it fetches is the one put at `CS`. -/
theorem withFetchWordRunsTheWord : Obligations.WithFetchWordRunsTheWord := by
  unfold Obligations.WithFetchWordRunsTheWord
  intro s nbits w i hwf hi
  refine ⟨step_of_fetch ⟨rfl, rfl, rfl⟩ ?fetch,
    fun a ha => (readWord_writeWord hwf s.cs a _).trans (if_neg ha), writeWord_wf hwf _ _⟩
  case fetch =>
    rw [fetch_eq_decodeWord, ← decodeTableWord_eq_some_iff.mp hi]
    exact congrArg decodeWord ((readWord_writeWord hwf s.cs s.cs _).trans (if_pos rfl))

end Sys2Proof.Proofs

/-! PROOFS for the step operations (spec/40_step_ops.md), continued: what an operation does to each part of
the state, what it emits, and what it neither reads nor writes (R20, R34, R55 to R64, R93 to R100). -/

namespace Sys2Proof.Proofs

open Sys2Proof.Machine Sys2Proof.Laws

/-! What an operation does, part by part. -/

/-- The branch of a `BRL` or `BRF` is taken. -/
def branches (s : State) : Instr → Bool
  | .brl l c _ => s.lineLevel l == c
  | .brf f c _ => s.readFlag f == c
  | .wr _ _ | .dir _ | .dly _ | .wrf _ _ | .jmp _ => false

/-- The step address after an operation at `a`. -/
def nextAddr (taken : Bool) (a : StepAddr) : Instr → StepAddr
  | .brl _ _ t | .brf _ _ t => if taken then t else a + 1
  | .jmp t => t
  | .wr _ _ | .dir _ | .dly _ | .wrf _ _ => a + 1

/-- The delay an operation starts, 0 if none. -/
def delayOf : Instr → Millis
  | .dly n => n
  | .wr _ _ | .dir _ | .brl _ _ _ | .brf _ _ _ | .wrf _ _ | .jmp _ => 0

/-- The level of an output line after an operation, `v` before it. -/
def lineAfter (l : Line) (v : Bool) : Instr → Bool
  | .wr l' v' => if l' = l then v' else v
  | .dir _ | .dly _ | .brl _ _ _ | .brf _ _ _ | .wrf _ _ | .jmp _ => v

/-- A flag after an operation, `v` before it. -/
def flagAfter (f : Flag) (v : Bool) : Instr → Bool
  | .wrf f' v' => if f' = f then v' else v
  | .dir d => if f = .drv then d else v
  | .wr _ _ | .dly _ | .brl _ _ _ | .brf _ _ _ | .jmp _ => v

/-- The events of an operation (R15). -/
def events (s : State) : Instr → List Event
  | .wr l v => [.wr l v]
  | .dir d => [.dir d]
  | .wrf f v =>
    match f.button with
    | some b => if v && !s.held b then [.edge b] else []
    | none => []
  | .dly _ | .brl _ _ _ | .brf _ _ _ | .jmp _ => []

/-- The events of an operation as the trace holds them. -/
def stampedEvents (s : State) (i : Instr) : List Stamped := (events s i).map (⟨s.now, ·⟩)

theorem events_wrf_heldFlag (s : State) (b : Button) (v : Bool) :
    events s (.wrf (heldFlag b) v) = if v && !s.held b then [.edge b] else [] := by
  cases b <;> rfl

theorem time_of_mem_stampedEvents {s : State} {i : Instr} {e : Stamped}
    (h : e ∈ stampedEvents s i) : e.time = s.now := by
  obtain ⟨_, -, rfl⟩ := List.mem_map.mp h
  rfl

/-- A term that no word spells takes the fault (log 5). -/
theorem exec_of_not_wellFormed {i : Instr} (h : i.wellFormed = false) (s : State) :
    exec i s = .next s.illegalStep := by
  cases i with
  | wr l v =>
    have hl : ¬ l.isOutput = true := ne_true_of_eq_false h
    exact if_neg hl
  | wrf f v =>
    cases f with
    | drv => rfl
    | heldR => cases h
    | heldH => cases h
    | heldA => cases h
  | dir d => cases h
  | dly n => cases h
  | brl l c a => cases h
  | brf f c a => cases h
  | jmp a => cases h

theorem exec_cs {i : Instr} {s t : State} (hwf : i.wellFormed = true) (h : exec i s = .next t) :
    t.cs = nextAddr (branches s i) s.cs i := by
  cases i with
  | wr l v => cases (exec_wr_output hwf v s).symm.trans h; rfl
  | dir d => cases (exec_dir d s).symm.trans h; rfl
  | dly n => cases (exec_dly n s).symm.trans h; rfl
  | brl l c a => cases (exec_brl l c a s).symm.trans h; simp [nextAddr, branches]
  | brf f c a =>
    cases (exec_brf f c a s).symm.trans h
    simp [nextAddr, branches, State.readFlag, flag_bit_eq_id]
  | wrf f v =>
    obtain ⟨b, rfl⟩ := exists_eq_heldFlag hwf
    cases (exec_wrf_heldFlag b v s).symm.trans h; rfl
  | jmp a => cases (exec_jmp a s).symm.trans h; rfl

theorem exec_tmr {i : Instr} {s t : State} (hwf : i.wellFormed = true) (ht : s.tmr = 0)
    (h : exec i s = .next t) : t.tmr = delayOf i := by
  cases i with
  | wr l v => cases (exec_wr_output hwf v s).symm.trans h; exact ht
  | dir d => cases (exec_dir d s).symm.trans h; exact ht
  | dly n => cases (exec_dly n s).symm.trans h; rfl
  | brl l c a => cases (exec_brl l c a s).symm.trans h; exact (noteRead_tmr l s).trans ht
  | brf f c a => cases (exec_brf f c a s).symm.trans h; exact ht
  | wrf f v =>
    obtain ⟨b, rfl⟩ := exists_eq_heldFlag hwf
    cases (exec_wrf_heldFlag b v s).symm.trans h; exact ht
  | jmp a => cases (exec_jmp a s).symm.trans h; exact ht

/-- Output lines have latch bits of their own (R24). -/
theorem outputLine_bit_injective {l l' : Line} (h : l.isOutput = true) (h' : l'.isOutput = true)
    (hbit : l'.id.toNat - 3 = l.id.toNat - 3) : l = l' := by
  revert h h' hbit
  cases l <;> cases l' <;> decide

theorem lineLevel_lineWrite {l l' : Line} (h : l.isOutput = true) (h' : l'.isOutput = true) (v : Bool)
    (s : State) : (s.lineWrite l v).lineLevel l' = if l = l' then v else s.lineLevel l' := by
  rw [lineLevel_output h', getLsbD_out_lineWrite h, lineLevel_output h']
  by_cases hl : l = l'
  · subst hl
    simp
  · rw [if_neg hl, if_neg fun hbit => hl (outputLine_bit_injective h h' hbit)]

theorem lineLevel_of_out_eq {l : Line} {s t : State} (hl : l.isOutput = true) (h : t.out = s.out) :
    t.lineLevel l = s.lineLevel l := by
  rw [lineLevel_output hl, lineLevel_output hl, h]

theorem exec_lineLevel {i : Instr} {s t : State} {l : Line} (hl : l.isOutput = true)
    (hwf : i.wellFormed = true) (h : exec i s = .next t) :
    t.lineLevel l = lineAfter l (s.lineLevel l) i := by
  cases i with
  | wr l' v =>
    have hl' : l'.isOutput = true := hwf
    have hwrite : exec (.wr l' v) s = .next (s.lineWrite l' v).advance := if_pos hl'
    cases hwrite.symm.trans h
    exact (lineLevel_of_out_eq hl (advance_out _)).trans (lineLevel_lineWrite hl' hl v s)
  | dir d => cases (exec_dir d s).symm.trans h; exact lineLevel_of_out_eq hl rfl
  | dly n => cases (exec_dly n s).symm.trans h; exact lineLevel_of_out_eq hl rfl
  | brl l' c a =>
    cases (exec_brl l' c a s).symm.trans h; exact lineLevel_of_out_eq hl (noteRead_out l' s)
  | brf f c a => cases (exec_brf f c a s).symm.trans h; exact lineLevel_of_out_eq hl rfl
  | wrf f v =>
    obtain ⟨b, rfl⟩ := exists_eq_heldFlag hwf
    cases (exec_wrf_heldFlag b v s).symm.trans h; exact lineLevel_of_out_eq hl rfl
  | jmp a => cases (exec_jmp a s).symm.trans h; exact lineLevel_of_out_eq hl rfl

theorem readFlag_of_flag_eq {f : Flag} {s t : State} (h : t.flag = s.flag) :
    t.readFlag f = s.readFlag f := by
  rw [State.readFlag, h]
  rfl

theorem readFlag_setDir (f : Flag) (d : Bool) (s : State) :
    (s.setDir d).readFlag f = if f = .drv then d else s.readFlag f := by
  by_cases hf : f = .drv
  · rw [if_pos hf, hf]
    exact getLsbD_setBit_self s.flag (by decide) d
  · rw [if_neg hf]
    exact getLsbD_setBit_ne s.flag (fun hbit => hf (flag_bit_injective hbit)) d

theorem readFlag_writeHeld (f : Flag) (b : Button) (v : Bool) (s : State) :
    (s.writeHeld b v).readFlag f = if heldFlag b = f then v else s.readFlag f := by
  by_cases hf : heldFlag b = f
  · rw [if_pos hf, ← hf]
    exact held_writeHeld b v s
  · rw [if_neg hf]
    exact readFlag_writeHeld_of_ne (Ne.symm hf) v s

theorem exec_readFlag {i : Instr} {s t : State} (f : Flag) (hwf : i.wellFormed = true)
    (h : exec i s = .next t) : t.readFlag f = flagAfter f (s.readFlag f) i := by
  cases i with
  | wr l v => cases (exec_wr_output hwf v s).symm.trans h; rfl
  | dir d => cases (exec_dir d s).symm.trans h; exact readFlag_setDir f d s
  | dly n => cases (exec_dly n s).symm.trans h; rfl
  | brl l c a =>
    cases (exec_brl l c a s).symm.trans h; exact readFlag_of_flag_eq (noteRead_flag l s)
  | brf f' c a => cases (exec_brf f' c a s).symm.trans h; rfl
  | wrf f' v =>
    obtain ⟨b, rfl⟩ := exists_eq_heldFlag hwf
    cases (exec_wrf_eq_writeHeld b v s).symm.trans h
    exact readFlag_writeHeld f b v s
  | jmp a => cases (exec_jmp a s).symm.trans h; rfl

theorem noteRead_with_tr (l : Line) (tr : List Stamped) (s : State) :
    State.noteRead l { s with tr := tr } = { s.noteRead l with tr := tr } := by
  have hleft := noteRead_eq l { s with tr := tr }
  rw [noteRead_eq l s]
  by_cases hc : l = .pclk ∧ s.drv = false
  · rw [if_pos hc]
    exact hleft.trans (if_pos hc)
  · rw [if_neg hc]
    exact hleft.trans (if_neg hc)

/-- An operation appends its events to the trace and does not read it. -/
theorem exec_with_tr {i : Instr} {s t : State} (tr : List Stamped) (hwf : i.wellFormed = true)
    (h : exec i s = .next t) :
    exec i { s with tr := tr } = .next { t with tr := tr ++ stampedEvents s i } := by
  cases i with
  | wr l v =>
    cases (exec_wr_output hwf v s).symm.trans h
    exact exec_wr_output hwf v _
  | dir d => cases (exec_dir d s).symm.trans h; rfl
  | dly n => cases (exec_dly n s).symm.trans h; simp [exec_dly, stampedEvents, events]
  | brl l c a =>
    cases (exec_brl l c a s).symm.trans h
    rw [exec_brl, noteRead_with_tr]
    simp [stampedEvents, events]
    rfl
  | brf f' c a => cases (exec_brf f' c a s).symm.trans h; simp [exec_brf, stampedEvents, events]
  | wrf f' v =>
    obtain ⟨b, rfl⟩ := exists_eq_heldFlag hwf
    cases (exec_wrf_eq_writeHeld b v s).symm.trans h
    rw [exec_wrf_eq_writeHeld, stampedEvents, events_wrf_heldFlag, writeHeld_eq, writeHeld_eq]
    have hheld : State.held b { s with tr := tr } = s.held b := rfl
    cases hc : v && !s.held b <;> simp [hc, hheld, State.advance, State.goto]
  | jmp a => cases (exec_jmp a s).symm.trans h; simp [exec_jmp, stampedEvents, events]

theorem exec_tr {i : Instr} {s t : State} (hwf : i.wellFormed = true) (h : exec i s = .next t) :
    t.tr = s.tr ++ stampedEvents s i := by
  have hself : t = { t with tr := s.tr ++ stampedEvents s i } :=
    Host.Outcome.next.inj (h.symm.trans (exec_with_tr s.tr hwf h))
  exact congrArg State.tr hself

/-- A read moves no part of the environment but the count of draws. -/
theorem noteRead_env_known (l : Line) (s : State) :
    (s.noteRead l).env.rstN = s.env.rstN ∧ (s.noteRead l).env.epoch = s.env.epoch ∧
      (s.noteRead l).env.script = s.env.script := by
  rw [noteRead_frame]
  exact ⟨rfl, rfl, rfl⟩

/-- Nor does an operation: what is known of the inputs stays known (R34). -/
theorem exec_env_known {i : Instr} {s t : State} (h : exec i s = .next t) :
    t.env.rstN = s.env.rstN ∧ t.env.epoch = s.env.epoch ∧ t.env.script = s.env.script := by
  obtain ⟨_, _, -, -, he⟩ | ⟨_, _, -, -, he⟩ | ⟨_, -, he⟩ | ⟨_, -, he⟩ | ⟨_, _, _, -, he⟩ |
    ⟨_, _, _, -, he⟩ | ⟨_, _, -, he⟩ | ⟨_, -, he⟩ | ⟨_, -, he⟩ := exec_cases i s <;>
  · cases he.symm.trans h
    simp [noteRead_env_known]

theorem exec_rstN {i : Instr} {s t : State} (h : exec i s = .next t) : t.env.rstN = s.env.rstN := by
  obtain ⟨hr, -, -⟩ := exec_env_known h
  exact hr

theorem exec_btn {i : Instr} {s t : State} (h : exec i s = .next t) (b : Button) (u : Nat) :
    t.env.btn b u = s.env.btn b u := by
  obtain ⟨-, hepoch, hscript⟩ := exec_env_known h
  rw [Env.btn, hepoch, hscript]
  rfl

/-! Which parts an operation writes and reads (R20, R34, R64). -/

/-- Settles O15: each operation's next state differs from the state in the fields it names. -/
theorem onlyTheNamedOperationsWrite : Obligations.OnlyTheNamedOperationsWrite := by
  unfold Obligations.OnlyTheNamedOperationsWrite
  intro i s t hwf h
  have hfault := exec_fault hwf h
  have hnow := exec_now h
  cases i with
  | wr l v =>
    cases (exec_wr_output hwf v s).symm.trans h
    simp
  | dir d =>
    cases (exec_dir d s).symm.trans h
    simp
  | dly n =>
    cases (exec_dly n s).symm.trans h
    simp
  | brl l c a =>
    cases (exec_brl l c a s).symm.trans h
    simpa [not_imp_comm] using fun hl => noteRead_env_of_ne_pclk (l := l) hl s
  | brf f c a =>
    cases (exec_brf f c a s).symm.trans h
    simp
  | wrf f v =>
    obtain ⟨b, rfl⟩ := exists_eq_heldFlag hwf
    cases (exec_wrf_heldFlag b v s).symm.trans h
    cases v <;> simp
  | jmp a =>
    cases (exec_jmp a s).symm.trans h
    simp

/-- An output line reads as its latch bit, in every environment. -/
theorem lineLevel_with_env {l : Line} (h : l.isOutput = true) (s : State) (e : Env) :
    State.lineLevel l { s with env := e } = s.lineLevel l :=
  lineLevel_of_out_eq h rfl

theorem noteRead_of_isOutput {l : Line} (h : l.isOutput = true) (s : State) : s.noteRead l = s := by
  rw [noteRead_eq, if_neg]
  rintro ⟨rfl, -⟩
  cases h

/-- Settles O16: no operation but `BRL` mentions the environment, and a `BRL` of an output line reads
the latch. -/
theorem onlyLineReadsSeeTheEnvironment : Obligations.OnlyLineReadsSeeTheEnvironment := by
  unfold Obligations.OnlyLineReadsSeeTheEnvironment
  intro i s t e hread h
  cases hwf : i.wellFormed
  case false =>
    cases (exec_of_not_wellFormed hwf s).symm.trans h
    exact exec_of_not_wellFormed hwf _
  case true =>
    cases i with
    | wr l v =>
      cases (exec_wr_output hwf v s).symm.trans h
      exact exec_wr_output hwf v _
    | dir d =>
      cases (exec_dir d s).symm.trans h
      rfl
    | dly n =>
      cases (exec_dly n s).symm.trans h
      rfl
    | brl l c a =>
      have hl := hread l c a rfl
      cases (exec_brl l c a s).symm.trans h
      rw [exec_brl, noteRead_of_isOutput hl, noteRead_of_isOutput hl, lineLevel_with_env hl]
    | brf f c a =>
      cases (exec_brf f c a s).symm.trans h
      exact exec_brf f c a _
    | wrf f v =>
      obtain ⟨b, rfl⟩ := exists_eq_heldFlag hwf
      cases (exec_wrf_heldFlag b v s).symm.trans h
      exact exec_wrf_heldFlag b v _
    | jmp a =>
      cases (exec_jmp a s).symm.trans h
      rfl

/-- Settles O11: such a read is the one that counts a draw, and its level is the bit drawn. -/
theorem releasedClockLineDrawsFreshBits : Obligations.ReleasedClockLineDrawsFreshBits := by
  unfold Obligations.ReleasedClockLineDrawsFreshBits
  intro c a s hdrv hext
  have hreleased : s.drv = false := hdrv
  have hlevel : s.lineLevel .pclk = Config.floating s.env.draws := by
    simp [lineLevel_pclk, hreleased, hext]
  rw [exec_brl, noteRead_eq, if_pos ⟨rfl, hreleased⟩, hlevel]

/-- The words of the terms that are not well-formed are reserved (R76). -/
theorem reserved_of_not_wellFormed {i : Instr} (h : i.wellFormed = false) :
    ∃ r, decodeWord (encode i) = .error r := by
  cases i with
  | wr l v =>
    have hinput : l.isOutput = false := h
    have hl : l = .btnReset ∨ l = .btnHalt ∨ l = .btnAux ∨ l = .pclk := by
      revert hinput
      cases l <;> decide
    obtain rfl | rfl | rfl | rfl := hl <;> cases v <;> exact ⟨_, rfl⟩
  | wrf f v =>
    have hfree : f.isHeld = false := h
    obtain rfl : f = .drv := by
      revert hfree
      cases f <;> decide
    cases v <;> exact ⟨_, rfl⟩
  | dir d => cases h
  | dly n => cases h
  | brl l c a => cases h
  | brf f c a => cases h
  | jmp a => cases h

/-- Settles O14: such a term is a `WR` of a line that is no output or a `WRF` of `DRV`. -/
theorem illFormedTermsTakeTheFault : Obligations.IllFormedTermsTakeTheFault :=
  fun _ s h => ⟨reserved_of_not_wellFormed h, exec_of_not_wellFormed h s⟩

/-! The faulted state and the trace along steps. -/

/-- Settles O22: faulted ticks, one after the other. -/
theorem faultedStateHolds : Obligations.FaultedStateHolds :=
  fun _ n hf hr => steps_faulted hr hf n

/-- With the pin released a step appends events stamped with the time it starts at, and does the same to
every other trace (R15, R34). -/
theorem step_with_tr {s t : State} (hr : s.env.rstN = true) (h : step s = .next t) :
    ∃ new, t.tr = s.tr ++ new ∧ (∀ e ∈ new, e.time = s.now) ∧
      ∀ tr, step { s with tr := tr } = .next { t with tr := tr ++ new } := by
  obtain ⟨hr', -⟩ | ⟨-, hf, he⟩ | ⟨-, hf, ht, he⟩ | ⟨hexec, r, hi, he⟩ | ⟨hexec, i, hi, he⟩ :=
    step_cases s
  · exact absurd (hr'.symm.trans hr) Bool.false_ne_true
  · cases he.symm.trans h
    refine ⟨[], by simp, by simp, fun tr => ?_⟩
    rw [step_of_fault (s := { s with tr := tr }) hr hf]
    simp [State.tickFaulted]
  · cases he.symm.trans h
    refine ⟨[], by simp, by simp, fun tr => ?_⟩
    rw [step_of_tmr (s := { s with tr := tr }) hr hf ht]
    simp [State.tick]
  · cases he.symm.trans h
    exact ⟨[⟨s.now, .fault s.cs⟩], illegalStep_tr s, by simp, fun tr => step_of_reserved hexec hi⟩
  · have hrun := he.symm.trans h
    have hwf := wellFormed_of_decodeWord ((fetch_eq_decodeWord s).symm.trans hi)
    exact ⟨stampedEvents s i, exec_tr hwf hrun, fun e => time_of_mem_stampedEvents,
      fun tr => (step_of_fetch (s := { s with tr := tr }) hexec hi).trans (exec_with_tr tr hwf hrun)⟩

/-- Settles O29: the events are those of the step, whatever the trace holds. -/
theorem traceOnlyGrowsAndIsNeverRead : Obligations.TraceOnlyGrowsAndIsNeverRead := by
  unfold Obligations.TraceOnlyGrowsAndIsNeverRead
  intro s t tr hr h
  obtain ⟨new, htr, htime, hstep⟩ := step_with_tr hr h
  exact ⟨new, htr, htime, hstep tr⟩

theorem chronological_nil (limit : Nat) : Chronological limit [] :=
  ⟨List.Pairwise.nil, fun _ h => absurd h List.not_mem_nil⟩

/-- Events at the present time keep the order. -/
theorem chronological_append {now now' : Nat} {tr new : List Stamped} (h : Chronological now tr)
    (hnew : ∀ e ∈ new, e.time = now) (hle : now ≤ now') : Chronological now' (tr ++ new) := by
  obtain ⟨horder, hpast⟩ := h
  have hequal : new.Pairwise (fun e f => e.time ≤ f.time) :=
    List.pairwise_of_forall_mem_list fun e he f hf => ((hnew e he).trans (hnew f hf).symm).le
  refine ⟨List.pairwise_append.mpr ⟨horder, hequal, fun e he f hf => ?_⟩, fun e he => ?_⟩
  · exact (hpast e he).trans (hnew f hf).ge
  · obtain he | he := List.mem_append.mp he
    · exact (hpast e he).trans hle
    · exact (hnew e he).le.trans hle

/-- Settles O30: a step appends events of the present, and model time never falls but at a reset, which
empties the trace. -/
theorem traceStaysChronological : Obligations.TraceStaysChronological := by
  unfold Obligations.TraceStaysChronological
  intro s t hs h
  cases hr : s.env.rstN
  case false =>
    cases (step_of_reset hr).symm.trans h
    exact chronological_nil _
  case true =>
    obtain ⟨new, htr, htime, -⟩ := step_with_tr hr h
    have hnow : s.now ≤ t.now := by
      rw [step_now hr h]
      split <;> omega
    rw [htr]
    exact chronological_append hs htime hnow

end Sys2Proof.Proofs

/-! PROOFS that a state shows what its trace tells (R53, R61, R100). -/

namespace Sys2Proof.Proofs

open Sys2Proof.Machine Sys2Proof.Laws

theorem lastWritten_append (l : Line) (v : Bool) (tr new : List Stamped) :
    lastWritten l v (tr ++ new) = lastWritten l (lastWritten l v tr) new := by
  induction tr generalizing v with
  | nil => rfl
  | cons e rest ih => exact ih _

theorem lastDirection_append (v : Bool) (tr new : List Stamped) :
    lastDirection v (tr ++ new) = lastDirection (lastDirection v tr) new := by
  induction tr generalizing v with
  | nil => rfl
  | cons e rest ih => exact ih _

/-- What the events of an operation say of a line, the direction and the fault is what it does to them. -/
theorem events_tell {i : Instr} (hwf : i.wellFormed = true) (s : State) :
    (∀ l v, lastWritten l v (stampedEvents s i) = lineAfter l v i) ∧
    (∀ d, lastDirection d (stampedEvents s i) = flagAfter .drv d i) ∧
    (stampedEvents s i).any (fun e => e.event.isFault) = false := by
  cases i with
  | wr l v => exact ⟨fun _ _ => rfl, fun _ => rfl, rfl⟩
  | dir d => exact ⟨fun _ _ => rfl, fun _ => rfl, rfl⟩
  | dly n => exact ⟨fun _ _ => rfl, fun _ => rfl, rfl⟩
  | brl l c a => exact ⟨fun _ _ => rfl, fun _ => rfl, rfl⟩
  | brf f c a => exact ⟨fun _ _ => rfl, fun _ => rfl, rfl⟩
  | wrf f v =>
    obtain ⟨b, rfl⟩ := exists_eq_heldFlag hwf
    have hdrv (d : Bool) : flagAfter .drv d (.wrf (heldFlag b) v) = d := by cases b <;> rfl
    rw [stampedEvents, events_wrf_heldFlag]
    cases v && !s.held b <;> exact ⟨fun _ _ => rfl, fun d => (hdrv d).symm, rfl⟩
  | jmp a => exact ⟨fun _ _ => rfl, fun _ => rfl, rfl⟩

theorem traceTells_of_atResetValues {s : State} (h : AtResetValues s) : TraceTells s := by
  have hdrv := drv_of_atResetValues h
  obtain ⟨-, -, hout, -, hfault, -, htr⟩ := h
  refine ⟨fun l hl => ?_, ?_, ?_⟩
  · rw [lineLevel_output hl, hout, htr]
    exact BitVec.getLsbD_zero
  · rw [hdrv, htr]
    rfl
  · rw [hfault, htr]
    rfl

/-- A tick changes nothing that the trace tells of. -/
theorem traceTells_of_eq {s t : State} (h : TraceTells s) (hout : t.out = s.out)
    (hflag : t.flag = s.flag) (hfault : t.fault = s.fault) (htr : t.tr = s.tr) : TraceTells t := by
  obtain ⟨hline, hdir, hfault'⟩ := h
  refine ⟨fun l hl => ?_, ?_, ?_⟩
  · rw [lineLevel_of_out_eq hl hout, htr, hline l hl]
  · rw [State.drv, hflag, htr, ← hdir]
    rfl
  · rw [hfault, htr, hfault']

theorem traceTells_illegalStep {s : State} (h : TraceTells s) : TraceTells s.illegalStep := by
  obtain ⟨hline, hdir, -⟩ := h
  refine ⟨fun l hl => ?_, ?_, ?_⟩
  · rw [lineLevel_of_out_eq hl (illegalStep_out s), illegalStep_tr, lastWritten_append, hline l hl]
    rfl
  · rw [illegalStep_tr, lastDirection_append, ← hdir]
    rfl
  · simp [Event.isFault]

theorem traceTells_exec {i : Instr} {s t : State} (h : TraceTells s) (hwf : i.wellFormed = true)
    (hexec : exec i s = .next t) : TraceTells t := by
  obtain ⟨hline, hdir, hfault⟩ := h
  obtain ⟨htellsLine, htellsDir, htellsFault⟩ := events_tell hwf s
  rw [TraceTells, exec_tr hwf hexec]
  refine ⟨fun l hl => ?_, ?_, ?_⟩
  · rw [exec_lineLevel hl hwf hexec, lastWritten_append, htellsLine, hline l hl]
  · rw [lastDirection_append, htellsDir, ← hdir]
    exact exec_readFlag .drv hwf hexec
  · rw [exec_fault hwf hexec, List.any_append, htellsFault, Bool.or_false, hfault]

/-- Settles O31, by the cases of a step. -/
theorem linesFollowTheTrace : Obligations.LinesFollowTheTrace := by
  unfold Obligations.LinesFollowTheTrace
  intro s t hs h
  obtain ⟨-, he⟩ | ⟨-, -, he⟩ | ⟨-, -, -, he⟩ | ⟨-, _, -, he⟩ | ⟨-, i, hi, he⟩ := step_cases s
  · cases he.symm.trans h
    exact traceTells_of_atResetValues (atResetValues_hardReset s)
  · cases he.symm.trans h
    exact traceTells_of_eq hs rfl rfl rfl rfl
  · cases he.symm.trans h
    exact traceTells_of_eq hs rfl rfl rfl rfl
  · cases he.symm.trans h
    exact traceTells_illegalStep hs
  · exact traceTells_exec hs (wellFormed_of_decodeWord ((fetch_eq_decodeWord s).symm.trans hi))
      (he.symm.trans h)

/-- Settles O32: the latch and the trace are empty, the direction is driving. -/
theorem linesFollowTheTraceAtReset : Obligations.LinesFollowTheTraceAtReset :=
  ⟨traceTells_of_atResetValues atResetValues_reset, chronological_nil _⟩

end Sys2Proof.Proofs

/-! PROOFS that scripts cover every behaviour of the buttons (spec/00_scope.md R13, log 1). -/

namespace Sys2Proof.Proofs

open Sys2Proof.Machine

/-- A span that puts a level on a button for the one millisecond `t`. -/
def instant (b : Button) (t : Nat) (level : Bool) : Span := ⟨t, t + 1, .button b level⟩

/-- The script of a behaviour below a horizon, millisecond by millisecond. -/
def scriptOf (f : Button → Nat → Bool) : Nat → List Span
  | 0 => []
  | n + 1 => instant .reset n (f .reset n) :: instant .halt n (f .halt n) ::
      instant .aux n (f .aux n) :: scriptOf f n

theorem button?_instant (b b' : Button) (t t' : Nat) (level : Bool) :
    Span.button? b' t' (instant b t level) = if b = b' ∧ t = t' then some level else none := by
  have htime : (t ≤ t' ∧ t' < t + 1) ↔ t = t' := by omega
  simp only [Span.button?, instant, htime]

theorem findSome?_scriptOf (f : Button → Nat → Bool) (b : Button) {t horizon : Nat}
    (h : t < horizon) : (scriptOf f horizon).findSome? (Span.button? b t) = some (f b t) := by
  induction horizon with
  | zero => exact absurd h (Nat.not_lt_zero t)
  | succ n ih =>
    simp only [scriptOf, List.findSome?_cons, button?_instant]
    by_cases ht : n = t
    · subst ht
      cases b <;> simp
    · simpa [ht] using ih (by omega)

/-- Settles O34: the script that lists the behaviour. -/
theorem everyButtonBehaviourIsAdmitted : Obligations.EveryButtonBehaviourIsAdmitted := by
  unfold Obligations.EveryButtonBehaviourIsAdmitted
  intro f horizon
  refine ⟨scriptOf f horizon, fun e he b t ht => ?_⟩
  rw [Env.btn, he, findSome?_scriptOf f b ht]
  rfl

end Sys2Proof.Proofs

/-! PROOFS for the main control loop (spec/44_main_control_loop.md), continued: the operations of the
reference image R171 one by one, and the table of what holds at each step address. -/

namespace Sys2Proof.Proofs

open Sys2Proof.Machine Sys2Proof.Laws

/-! The operations of the image and the addresses they lead to. -/

/-- The operation the image holds at a step address up to 0x42. -/
def imageInstr (a : StepAddr) : Instr :=
  match decodeWord (imageWord a) with
  | .ok i => i
  | .error _ => .nop

/-- The step address after the image's operation at `a`. -/
def imageNext (taken : Bool) (a : StepAddr) : StepAddr := nextAddr taken a (imageInstr a)

/-- What holds at the 67 addresses one by one holds at every address up to 0x42. -/
theorem forall_of_forall_le {P : StepAddr → Prop} (h : ∀ k, k ≤ 0x42 → P (BitVec.ofNat 7 k)) :
    ∀ a : StepAddr, a.toNat ≤ 0x42 → P a := by
  intro a ha
  have hk := h a.toNat ha
  rwa [BitVec.ofNat_toNat, BitVec.setWidth_eq] at hk

theorem decodeWord_imageWord : ∀ a : StepAddr, a.toNat ≤ 0x42 →
    decodeWord (imageWord a) = .ok (imageInstr a) := forall_of_forall_le (by decide)

/-- `taken` is what a branch on the line does when the line reads `v`. -/
def agreesLine (l : Line) (v taken : Bool) : Instr → Bool
  | .brl l' c _ => decide (l' = l → taken = (v == c))
  | .wr _ _ | .dir _ | .dly _ | .brf _ _ _ | .wrf _ _ | .jmp _ => true

/-- `taken` is what a branch on the flag does when the flag is `v`. -/
def agreesFlag (f : Flag) (v taken : Bool) : Instr → Bool
  | .brf f' c _ => decide (f' = f → taken = (v == c))
  | .wr _ _ | .dir _ | .dly _ | .brl _ _ _ | .wrf _ _ | .jmp _ => true

theorem agreesLine_branches (l : Line) (s : State) (i : Instr) :
    agreesLine l (s.lineLevel l) (branches s i) i = true := by
  cases i with
  | brl l' c a =>
    refine decide_eq_true ?_
    rintro rfl
    rfl
  | wr l v => rfl
  | dir d => rfl
  | dly n => rfl
  | brf f c a => rfl
  | wrf f v => rfl
  | jmp a => rfl

theorem agreesFlag_branches (f : Flag) (s : State) (i : Instr) :
    agreesFlag f (s.readFlag f) (branches s i) i = true := by
  cases i with
  | brf f' c a =>
    refine decide_eq_true ?_
    rintro rfl
    rfl
  | wr l v => rfl
  | dir d => rfl
  | dly n => rfl
  | brl l c a => rfl
  | wrf f v => rfl
  | jmp a => rfl

/-! The table, checked column by column at the 67 addresses: from what it says at an address follows what
it says at the next one, whichever way a branch goes that the column does not decide. -/

theorem imageNext_le : ∀ a : StepAddr, a.toNat ≤ 0x42 → ∀ taken,
    (imageNext taken a).toNat ≤ 0x42 := forall_of_forall_le (by decide)

theorem delayOf_le_delayBefore : ∀ a : StepAddr, a.toNat ≤ 0x42 → ∀ taken,
    (delayOf (imageInstr a)).toNat ≤ delayBefore (imageNext taken a).toNat :=
  forall_of_forall_le (by decide)

theorem lineAfter_pwrUp : ∀ a : StepAddr, a.toNat ≤ 0x42 → ∀ taken,
    lineAfter .pwrOk (pwrUp a.toNat) (imageInstr a) = pwrUp (imageNext taken a).toNat :=
  forall_of_forall_le (by decide)

theorem lineAfter_dcUp : ∀ a : StepAddr, a.toNat ≤ 0x42 → ∀ taken,
    lineAfter .dcOk (dcUp a.toNat) (imageInstr a) = dcUp (imageNext taken a).toNat :=
  forall_of_forall_le (by decide)

theorem lineAfter_runUp : ∀ a : StepAddr, a.toNat ≤ 0x42 → ∀ taken,
    lineAfter .ledRun (runUp a.toNat) (imageInstr a) = runUp (imageNext taken a).toNat :=
  forall_of_forall_le (by decide)

theorem haltPair_imageNext : ∀ a : StepAddr, a.toNat ≤ 0x42 → ∀ taken req led,
    agreesLine .haltReq req taken (imageInstr a) = true → haltPair a.toNat req led = true →
    haltPair (imageNext taken a).toNat (lineAfter .haltReq req (imageInstr a))
      (lineAfter .ledHalt led (imageInstr a)) = true :=
  forall_of_forall_le (by decide)

theorem auxPair_imageNext : ∀ a : StepAddr, a.toNat ≤ 0x42 → ∀ taken drv led,
    agreesFlag .drv drv taken (imageInstr a) = true → auxPair a.toNat drv led = true →
    auxPair (imageNext taken a).toNat (flagAfter .drv drv (imageInstr a))
      (lineAfter .ledAux led (imageInstr a)) = true :=
  forall_of_forall_le (by decide)

theorem heldBits_imageNext : ∀ a : StepAddr, a.toNat ≤ 0x42 → ∀ taken r h x,
    (agreesFlag .heldR r taken (imageInstr a) && agreesFlag .heldH h taken (imageInstr a) &&
      agreesFlag .heldA x taken (imageInstr a) && heldBits a.toNat r h x) = true →
    heldBits (imageNext taken a).toNat (flagAfter .heldR r (imageInstr a))
      (flagAfter .heldH h (imageInstr a)) (flagAfter .heldA x (imageInstr a)) = true :=
  forall_of_forall_le (by decide)

/-! Steps from states of the table. -/

/-- A step from a state of the table: a hardware reset, a tick, or the image's operation. -/
theorem step_cases_of_refInv {s t : State} (hs : RefInv s) (h : step s = .next t) :
    (s.env.rstN = false ∧ t = s.hardReset) ∨
    (s.env.rstN = true ∧ s.tmr ≠ 0 ∧ t = s.tick) ∨
    (ExecEnabled s ∧ (imageInstr s.cs).wellFormed = true ∧ exec (imageInstr s.cs) s = .next t) := by
  obtain ⟨hrom, hfault, hcs, -⟩ := hs
  have hfetch : s.fetch = .ok (imageInstr s.cs) := by
    rw [fetch_eq_decodeWord, hrom, readWord_nil, decodeWord_imageWord _ hcs]
  obtain ⟨hr, he⟩ | ⟨-, hf, -⟩ | ⟨hr, -, ht, he⟩ | ⟨-, r, hi, -⟩ | ⟨hexec, i, hi, he⟩ := step_cases s
  · cases he.symm.trans h
    exact .inl ⟨hr, rfl⟩
  · exact absurd (hfault.symm.trans hf) Bool.false_ne_true
  · cases he.symm.trans h
    exact .inr (.inl ⟨hr, ht, rfl⟩)
  · cases hi.symm.trans hfetch
  · cases hi.symm.trans hfetch
    exact .inr (.inr ⟨hexec, wellFormed_of_decodeWord (decodeWord_imageWord _ hcs), he.symm.trans h⟩)

theorem refInv_of_atResetValues {s : State} (hrom : s.rom = []) (h : AtResetValues s) : RefInv s := by
  have hheld := held_of_atResetValues h
  have hdrv := drv_of_atResetValues h
  obtain ⟨hcs, htmr, hout, -, hfault, -, -⟩ := h
  rw [RefInv, hcs, htmr, hout, hdrv, hheld, hheld, hheld]
  exact ⟨hrom, hfault, by decide, by decide, rfl, rfl, rfl, rfl, rfl, rfl⟩

theorem tick_tmr_toNat {s : State} (ht : s.tmr ≠ 0) : s.tick.tmr.toNat + 1 = s.tmr.toNat := by
  rw [tick_tmr]
  bv_omega

theorem refInv_tick {s : State} (hs : RefInv s) (ht : s.tmr ≠ 0) : RefInv s.tick := by
  obtain ⟨hrom, hfault, hcs, htmr, hcolumns⟩ := hs
  have hdown := tick_tmr_toNat ht
  exact ⟨hrom, hfault, hcs, Nat.le_trans (by omega) htmr, hcolumns⟩

/-- The table in terms of the lines and flags that the columns are of (R22, R27). -/
theorem refInv_iff {s : State} :
    RefInv s ↔ s.rom = [] ∧ s.fault = false ∧ s.cs.toNat ≤ 0x42 ∧
      s.tmr.toNat ≤ delayBefore s.cs.toNat ∧
      s.lineLevel .pwrOk = pwrUp s.cs.toNat ∧
      s.lineLevel .dcOk = dcUp s.cs.toNat ∧
      s.lineLevel .ledRun = runUp s.cs.toNat ∧
      haltPair s.cs.toNat (s.lineLevel .haltReq) (s.lineLevel .ledHalt) = true ∧
      auxPair s.cs.toNat (s.readFlag .drv) (s.lineLevel .ledAux) = true ∧
      heldBits s.cs.toNat (s.readFlag .heldR) (s.readFlag .heldH) (s.readFlag .heldA) = true :=
  Iff.rfl

/-- Column by column, what the operation does to the line or flag of the column. -/
theorem refInv_exec {s t : State} (hs : RefInv s) (ht : s.tmr = 0)
    (hwf : (imageInstr s.cs).wellFormed = true) (h : exec (imageInstr s.cs) s = .next t) :
    RefInv t := by
  obtain ⟨hrom, hfault, hcs, -, hpwr, hdc, hrun, hhalt, haux, hheld⟩ := refInv_iff.mp hs
  have hnext : t.cs = imageNext (branches s (imageInstr s.cs)) s.cs := exec_cs hwf h
  have hline (l : Line) (hl : l.isOutput = true) := exec_lineLevel hl hwf h
  have hflag (f : Flag) := exec_readFlag f hwf h
  have hagrees (f : Flag) := agreesFlag_branches f s (imageInstr s.cs)
  rw [refInv_iff, hnext, exec_rom h, exec_fault hwf h, exec_tmr hwf ht h, hline .pwrOk rfl,
    hline .dcOk rfl, hline .ledRun rfl, hline .haltReq rfl, hline .ledHalt rfl, hline .ledAux rfl,
    hflag .drv, hflag .heldR, hflag .heldH, hflag .heldA, hpwr, hdc, hrun]
  exact ⟨hrom, hfault, imageNext_le _ hcs _, delayOf_le_delayBefore _ hcs _,
    lineAfter_pwrUp _ hcs _, lineAfter_dcUp _ hcs _, lineAfter_runUp _ hcs _,
    haltPair_imageNext _ hcs _ _ _ (agreesLine_branches .haltReq s _) hhalt,
    auxPair_imageNext _ hcs _ _ _ (hagrees .drv) haux,
    heldBits_imageNext _ hcs _ _ _ _ (by simp only [hagrees, hheld, Bool.and_self])⟩

/-- Settles O38, by the cases of a step. -/
theorem referenceInvariantIsKept : Obligations.ReferenceInvariantIsKept := by
  unfold Obligations.ReferenceInvariantIsKept
  intro s t hs h
  obtain ⟨-, rfl⟩ | ⟨-, ht, rfl⟩ | ⟨⟨-, -, ht⟩, hwf, hexec⟩ := step_cases_of_refInv hs h
  · exact refInv_of_atResetValues hs.1 (atResetValues_hardReset s)
  · exact refInv_tick hs ht
  · exact refInv_exec hs ht hwf hexec

/-- Settles O39: the reset values meet the conditions at address 0x00. -/
theorem referenceInvariantAtReset : Obligations.ReferenceInvariantAtReset :=
  refInv_of_atResetValues rfl atResetValues_reset

end Sys2Proof.Proofs

/-! PROOFS for what runs of the reference image keep: the times of startup and the samples of a release
confirmation (spec/42_bus_power_sequencer.md R131, spec/41_debounced_button.md R114 to R116), and what
follows from the table in every visited state (R26, R30, R98, R119, R141, R173). -/

namespace Sys2Proof.Proofs

open Sys2Proof.Machine Sys2Proof.Laws

/-! Times and samples, checked at the 67 addresses. -/

theorem startupBy_imageNext : ∀ a : StepAddr, a.toNat ≤ 0x42 → ∀ taken,
    ∀ limit' ∈ startupBy (imageNext taken a).toNat,
      ∃ limit ∈ startupBy a.toNat, limit + (delayOf (imageInstr a)).toNat ≤ limit' :=
  forall_of_forall_le (by decide)

/-- A sample that an address stands for was taken before, as long ago as the operation's delay says, or
the operation took it. -/
theorem releasedSamples_imageNext (b : Button) : ∀ a : StepAddr, a.toNat ≤ 0x42 → ∀ taken,
    ∀ d' ∈ releasedSamples b (imageNext taken a).toNat,
      (∃ d ∈ releasedSamples b a.toNat, d' = d + (delayOf (imageInstr a)).toNat) ∨
      (d' = 0 ∧ delayOf (imageInstr a) = 0 ∧ agreesLine b.line false taken (imageInstr a) = false) := by
  cases b <;> exact forall_of_forall_le (by decide)

/-- The write of the Held bit is reached by the sample before it, read pressed. -/
theorem pressedSample_imageNext (b : Button) : ∀ a : StepAddr, a.toNat ≤ 0x42 → ∀ taken,
    imageNext taken a = addrPoll b + 2 →
    agreesLine b.line true taken (imageInstr a) = false := by
  cases b <;> exact forall_of_forall_le (by decide)

/-- Where the Held bits are written: at the end of the Idle side and at the end of the release side. -/
theorem imageInstr_eq_wrf (b : Button) : ∀ a : StepAddr, a.toNat ≤ 0x42 → ∀ v,
    imageInstr a = .wrf (heldFlag b) v → a = if v then addrPoll b + 2 else addrRel b + 5 := by
  cases b <;> exact forall_of_forall_le (by decide)

theorem btn_of_not_agreesLine {s : State} {i : Instr} {b : Button} {v : Bool}
    (h : agreesLine b.line v (branches s i) i = false) : s.env.btn b s.now = !v := by
  have hagrees := agreesLine_branches b.line s i
  rw [lineLevel_input] at hagrees
  refine Bool.eq_not.mpr fun hv => ?_
  rw [hv, h] at hagrees
  cases hagrees

theorem onTime_of_atResetValues {s : State} (h : AtResetValues s) : OnTime s := by
  obtain ⟨hcs, htmr, -, -, -, hnow, -⟩ := h
  rw [OnTime, hcs, htmr, hnow]
  refine ⟨by decide, fun b d hd => ?_⟩
  cases b <;> cases hd

theorem onTime_tick {s : State} (hs : OnTime s) (ht : s.tmr ≠ 0) : OnTime s.tick := by
  have hend : s.tick.now + s.tick.tmr.toNat = s.now + s.tmr.toNat := by
    have hdown := tick_tmr_toNat ht
    rw [tick_now]
    omega
  rwa [OnTime, hend]

theorem onTime_exec {s t : State} (hinv : RefInv s) (hs : OnTime s) (ht : s.tmr = 0)
    (hwf : (imageInstr s.cs).wellFormed = true) (h : exec (imageInstr s.cs) s = .next t) :
    OnTime t := by
  obtain ⟨-, -, hcs, -⟩ := hinv
  obtain ⟨hstartup, hsamples⟩ := hs
  rw [ht] at hstartup hsamples
  have hnext : t.cs = imageNext (branches s (imageInstr s.cs)) s.cs := exec_cs hwf h
  rw [OnTime, hnext, exec_now h, exec_tmr hwf ht h]
  refine ⟨fun limit' hlimit' => ?startup, fun b d' hd' => ?sample⟩
  case startup =>
    obtain ⟨limit, hlimit, hle⟩ := startupBy_imageNext _ hcs _ limit' hlimit'
    have hbefore : s.now ≤ limit := hstartup limit hlimit
    omega
  case sample =>
    rw [exec_btn h]
    obtain ⟨d, hd, rfl⟩ | ⟨rfl, hdelay, htaken⟩ := releasedSamples_imageNext b _ hcs _ d' hd'
    · obtain ⟨hle, hbtn⟩ : d ≤ s.now ∧ s.env.btn b (s.now - d) = true := hsamples b d hd
      rw [Nat.add_sub_add_right]
      exact ⟨by omega, hbtn⟩
    · rw [hdelay]
      exact ⟨Nat.zero_le _, btn_of_not_agreesLine htaken⟩

/-- Settles O59, by the cases of a step: a tick leaves the end of the delay where it is. -/
theorem timeAndSamplesAreKept : Obligations.TimeAndSamplesAreKept := by
  unfold Obligations.TimeAndSamplesAreKept
  intro s t hinv hs h
  obtain ⟨-, rfl⟩ | ⟨-, ht, rfl⟩ | ⟨⟨-, -, ht⟩, hwf, hexec⟩ := step_cases_of_refInv hinv h
  · exact onTime_of_atResetValues (atResetValues_hardReset s)
  · exact onTime_tick hs ht
  · exact onTime_exec hinv hs ht hwf hexec

/-! Runs from hardware reset. -/

theorem atResetValues_of_started {s : State} (h : Started s) : AtResetValues s := by
  obtain ⟨e, -, rfl⟩ := h
  exact atResetValues_reset

theorem atReference_of_started {s : State} (h : Started s) : AtReference s := by
  obtain ⟨e, hr, rfl⟩ := h
  exact ⟨⟨hr, rfl, rfl⟩, rfl⟩

/-- Settles O60: both are states at the reset values. -/
theorem timeAndSamplesAtReset : Obligations.TimeAndSamplesAtReset := by
  unfold Obligations.TimeAndSamplesAtReset
  refine ⟨fun s hs => ?started, fun s hs => ?asserted⟩
  case started =>
    have hreset := atResetValues_of_started hs
    obtain ⟨-, hrom⟩ := atReference_of_started hs
    exact ⟨refInv_of_atResetValues hrom hreset, onTime_of_atResetValues hreset⟩
  case asserted =>
    have hreset := atResetValues_driveRst_false s
    exact ⟨refInv_of_atResetValues hs.1 hreset, onTime_of_atResetValues hreset⟩

/-- Where a Held bit is about to be set the button reads pressed (R112). -/
def SampledPressed (s : State) : Prop :=
  ∀ b : Button, s.cs = addrPoll b + 2 → s.env.btn b s.now = false

theorem sampledPressed_of_atResetValues {s : State} (h : AtResetValues s) : SampledPressed s := by
  obtain ⟨hcs, -⟩ := h
  intro b hb
  rw [hcs] at hb
  cases b <;> cases hb

/-- No delay runs there, so no time passes between the sample and the write. -/
theorem sampledPressed_tick {s : State} (hinv : RefInv s) (ht : s.tmr ≠ 0) :
    SampledPressed s.tick := by
  obtain ⟨-, -, -, htmr, -⟩ := hinv
  intro b hb
  have hnone : delayBefore s.cs.toNat = 0 := by
    rw [← tick_cs s, hb]
    cases b <;> rfl
  exact absurd (BitVec.eq_of_toNat_eq (Nat.le_zero.mp (hnone ▸ htmr))) ht

theorem sampledPressed_exec {s t : State} (hinv : RefInv s)
    (hwf : (imageInstr s.cs).wellFormed = true) (h : exec (imageInstr s.cs) s = .next t) :
    SampledPressed t := by
  obtain ⟨-, -, hcs, -⟩ := hinv
  intro b hb
  have hnext : imageNext (branches s (imageInstr s.cs)) s.cs = addrPoll b + 2 :=
    (exec_cs hwf h).symm.trans hb
  rw [exec_btn h, exec_now h]
  exact btn_of_not_agreesLine (pressedSample_imageNext b _ hcs _ hnext)

/-- No step moves the pin. -/
theorem step_rstN {s t : State} (h : step s = .next t) : t.env.rstN = s.env.rstN := by
  obtain ⟨-, he⟩ | ⟨-, -, he⟩ | ⟨-, -, -, he⟩ | ⟨-, _, -, he⟩ | ⟨-, _, -, he⟩ := step_cases s
  · cases he.symm.trans h
    rfl
  · cases he.symm.trans h
    rfl
  · cases he.symm.trans h
    rfl
  · cases he.symm.trans h
    rfl
  · exact exec_rstN (he.symm.trans h)

/-- What a run from hardware reset keeps, the pin staying released. -/
structure RunInv (s : State) : Prop where
  rstN : s.env.rstN = true
  refInv : RefInv s
  onTime : OnTime s
  sampledPressed : SampledPressed s

theorem runInv_of_started {s : State} (h : Started s) : RunInv s := by
  obtain ⟨hinv, htime⟩ := timeAndSamplesAtReset.1 s h
  obtain ⟨⟨hr, -⟩, -⟩ := atReference_of_started h
  exact ⟨hr, hinv, htime, sampledPressed_of_atResetValues (atResetValues_of_started h)⟩

theorem runInv_step {s t : State} (hs : RunInv s) (h : step s = .next t) : RunInv t := by
  obtain ⟨hr, hinv, htime, -⟩ := hs
  have hinv' := referenceInvariantIsKept s t hinv h
  have htime' := timeAndSamplesAreKept s t hinv htime h
  refine ⟨(step_rstN h).trans hr, hinv', htime', ?_⟩
  obtain ⟨hr', -⟩ | ⟨-, ht, rfl⟩ | ⟨-, hwf, hexec⟩ := step_cases_of_refInv hinv h
  · exact absurd (hr'.symm.trans hr) Bool.false_ne_true
  · exact sampledPressed_tick hinv ht
  · exact sampledPressed_exec hinv hwf hexec

/-- What every step keeps holds at the end of a run. -/
theorem steps_induction {P : State → Prop} (hstep : ∀ s t, P s → step s = .next t → P t) {n : Nat}
    {s t : State} (hs : P s) (h : Steps n s t) : P t := by
  induction n generalizing s with
  | zero => exact steps_unique h (steps_zero s) ▸ hs
  | succ n ih =>
    obtain ⟨u, hfirst, hrest⟩ := (steps_succ_iff n s t).mp h
    exact ih (hstep s u hs hfirst) hrest

theorem steps_rstN {n : Nat} {s t : State} (hs : s.env.rstN = true) (h : Steps n s t) :
    t.env.rstN = true :=
  steps_induction (P := fun u => u.env.rstN = true) (fun _ _ hr hstep => (step_rstN hstep).trans hr)
    hs h

theorem runInv_of_visited {s : State} (h : Visited s) : RunInv s := by
  obtain ⟨s₀, n, hstart, hrun⟩ := h
  exact steps_induction (fun _ _ => runInv_step) (runInv_of_started hstart) hrun

/-- Settles O44: the table's own conditions. -/
theorem referenceImageNeverFaults : Obligations.ReferenceImageNeverFaults := by
  unfold Obligations.ReferenceImageNeverFaults
  intro s h
  obtain ⟨-, hfault, hcs, -⟩ := (runInv_of_visited h).refInv
  exact ⟨hfault, hcs⟩

end Sys2Proof.Proofs

/-! PROOFS of what the table says in every visited state: the pairs and the power lines while a delay runs
(R26, R30, R141), and the Held bits where they are written (R98, R119). -/

namespace Sys2Proof.Proofs

open Sys2Proof.Machine Sys2Proof.Laws

/-! The columns where a delay can run, checked at the 67 addresses. -/

theorem haltPair_of_delay : ∀ a : StepAddr, a.toNat ≤ 0x42 → delayBefore a.toNat ≠ 0 → ∀ req led,
    haltPair a.toNat req led = true → req = !led := forall_of_forall_le (by decide)

theorem auxPair_of_delay : ∀ a : StepAddr, a.toNat ≤ 0x42 → delayBefore a.toNat ≠ 0 → ∀ drv led,
    auxPair a.toNat drv led = true → led = drv := forall_of_forall_le (by decide)

theorem powerUp_ordered : ∀ a : StepAddr, a.toNat ≤ 0x42 →
    (pwrUp a.toNat = true → dcUp a.toNat = true) ∧ (runUp a.toNat = true → pwrUp a.toNat = true) :=
  forall_of_forall_le (by decide)

/-- The lines are up outside the reset sequence and the part of startup that is over by 1610. -/
theorem powerUp_or_startup : ∀ a : StepAddr, a.toNat ≤ 0x42 → ¬ (0x0D ≤ a.toNat ∧ a.toNat ≤ 0x1A) →
    (pwrUp a.toNat = true ∧ dcUp a.toNat = true ∧ runUp a.toNat = true) ∨
    ∃ limit ∈ startupBy a.toNat, limit ≤ 1610 := forall_of_forall_le (by decide)

theorem delayBefore_ne_zero {s : State} (hs : RefInv s) (ht : s.tmr ≠ 0) :
    delayBefore s.cs.toNat ≠ 0 := by
  obtain ⟨-, -, -, htmr, -⟩ := hs
  intro hnone
  exact ht (BitVec.eq_of_toNat_eq (Nat.le_zero.mp (hnone ▸ htmr)))

theorem busConsistent_of_delay {s : State} (hs : RefInv s) (ht : s.tmr ≠ 0) : BusConsistent s := by
  have hdelay := delayBefore_ne_zero hs ht
  obtain ⟨-, -, hcs, -, -, -, -, hhalt, -, -⟩ := hs
  exact haltPair_of_delay _ hcs hdelay _ _ hhalt

theorem auxConsistent_of_delay {s : State} (hs : RefInv s) (ht : s.tmr ≠ 0) : AuxConsistent s := by
  have hdelay := delayBefore_ne_zero hs ht
  obtain ⟨-, -, hcs, -, -, -, -, -, haux, -⟩ := hs
  exact auxPair_of_delay _ hcs hdelay _ _ haux

/-- The first steps of startup, none of which takes model time (R131). -/
theorem steps_startup_writes {s : State} (h : Started s) :
    Steps 1 s ((s.lineWrite .haltReq true).goto 0x01) ∧
    Steps 3 s ((((s.lineWrite .haltReq true).setDir true).lineWrite .ledAux true).goto 0x03) := by
  have href := atReference_of_started h
  obtain ⟨hcs, -⟩ := atResetValues_of_started h
  have hfirst := steps_of_holdsStraight [.wr .haltReq true] (a := 0x00) href (by decide)
  have hthird := steps_of_holdsStraight [.wr .haltReq true, .dir true, .wr .ledAux true]
    (a := 0x00) href (by decide)
  rw [goto_of_cs hcs] at hfirst hthird
  exact ⟨hfirst, hthird⟩

theorem step_of_steps_one {s t : State} (h : Steps 1 s t) : step s = .next t := by
  obtain ⟨u, hstep, hrest⟩ := (steps_succ_iff 0 s t).mp h
  rwa [steps_unique hrest (steps_zero u)]

/-- Settles O41: the table's column where a delay can run, and the first write of startup. -/
theorem busStatusStaysConsistent : Obligations.BusStatusStaysConsistent := by
  unfold Obligations.BusStatusStaysConsistent
  refine ⟨fun s hs => busConsistent_of_delay (runInv_of_visited hs).refInv, rfl, rfl, fun s hs => ?_⟩
  obtain ⟨hfirst, -⟩ := steps_startup_writes hs
  obtain ⟨-, -, -, -, -, hnow, -⟩ := atResetValues_of_started hs
  refine ⟨_, step_of_steps_one hfirst, ?_, ?_⟩
  · rw [goto_out, getLsbD_out_lineWrite rfl]
    rfl
  · rw [goto_now, lineWrite_now, hnow]

/-- Settles O42: the table's column where a delay can run, and the first three writes of startup. -/
theorem auxLedShowsTheClockMode : Obligations.AuxLedShowsTheClockMode := by
  unfold Obligations.AuxLedShowsTheClockMode
  refine ⟨fun s hs => auxConsistent_of_delay (runInv_of_visited hs).refInv, rfl, rfl, fun s hs => ?_⟩
  obtain ⟨-, hthird⟩ := steps_startup_writes hs
  obtain ⟨-, -, -, -, -, hnow, -⟩ := atResetValues_of_started hs
  refine ⟨_, hthird, ?_, ?_⟩
  · have hdrv : ((s.lineWrite .haltReq true).setDir true).drv = true := readFlag_setDir .drv true _
    rw [AuxConsistent, goto_out, getLsbD_out_lineWrite rfl, State.drv, goto_flag, lineWrite_flag]
    exact hdrv.symm
  · rw [goto_now, lineWrite_now, setDir_now, lineWrite_now, hnow]

/-- Settles O43: after 1610 the step address is out of the part of startup that has a time limit. -/
theorem powerLinesStayOrdered : Obligations.PowerLinesStayOrdered := by
  unfold Obligations.PowerLinesStayOrdered
  intro s hs ht
  obtain ⟨-, hinv, ⟨hstartup, -⟩, -⟩ := runInv_of_visited hs
  have hbus := busConsistent_of_delay hinv ht
  obtain ⟨-, -, hcs, -, hpwr, hdc, hrun, -, -, -⟩ := hinv
  rw [PowerOrdered, hpwr, hdc, hrun]
  refine ⟨hbus, powerUp_ordered _ hcs, fun hnow hout => ?_⟩
  obtain hup | ⟨limit, hlimit, hle⟩ := powerUp_or_startup _ hcs hout
  · exact hup
  · have hend := hstartup limit hlimit
    omega

/-! The Held bits. -/

/-- A write of a Held bit stands where the table has the other value (R98). -/
theorem held_of_heldBits {s : State} {b : Button} {v : Bool} (hs : RefInv s)
    (hcs : s.cs = if v then addrPoll b + 2 else addrRel b + 5) : s.held b = !v := by
  obtain ⟨-, -, -, -, -, -, -, -, -, hheld⟩ := hs
  rw [hcs] at hheld
  cases b <;> cases v <;> simpa [heldBits, addrPoll, addrRel] using hheld

/-- Settles O40: the image's two writes of a Held bit are at the end of the Idle side and at the end of
the release side of its poll. -/
theorem referenceImageWritesHeldOnlyToChangeIt :
    Obligations.ReferenceImageWritesHeldOnlyToChangeIt := by
  unfold Obligations.ReferenceImageWritesHeldOnlyToChangeIt
  intro s f v hs hi
  obtain ⟨hrom, -, hcs, -⟩ := id hs
  obtain ⟨b, rfl⟩ := exists_eq_heldFlag (wellFormed_of_decodeWord hi)
  rw [hrom, readWord_nil, decodeWord_imageWord _ hcs, Except.ok.injEq] at hi
  exact held_of_heldBits hs (imageInstr_eq_wrf b _ hcs v hi)

/-- A Held bit changes by a `WRF` to it only (R27). -/
theorem eq_wrf_of_flagAfter {i : Instr} {b : Button} {v : Bool}
    (h : flagAfter (heldFlag b) v i = !v) : i = .wrf (heldFlag b) (!v) := by
  have hne : v ≠ !v := by cases v <;> decide
  cases i with
  | wrf f v' =>
    by_cases hf : f = heldFlag b
    · rw [flagAfter, if_pos hf] at h
      rw [hf, h]
    · rw [flagAfter, if_neg hf] at h
      exact absurd h hne
  | dir d =>
    have hdrv : heldFlag b ≠ .drv := by cases b <;> decide
    rw [flagAfter, if_neg hdrv] at h
    exact absurd h hne
  | wr l v => exact absurd h hne
  | dly n => exact absurd h hne
  | brl l c a => exact absurd h hne
  | brf f c a => exact absurd h hne
  | jmp a => exact absurd h hne

/-- An edge is the only event of the `WRF` that sets the bit of an Idle button (R98). -/
theorem events_eq_edge_iff {s : State} {i : Instr} {b : Button} (hwf : i.wellFormed = true) :
    events s i = [.edge b] ↔ i = .wrf (heldFlag b) true ∧ s.held b = false := by
  constructor
  · intro h
    cases i with
    | wrf f v =>
      obtain ⟨b', rfl⟩ := exists_eq_heldFlag hwf
      rw [events_wrf_heldFlag] at h
      cases v <;> cases hheld : s.held b' <;> simp [hheld] at h
      subst h
      exact ⟨rfl, hheld⟩
    | wr l v => cases h
    | dir d => cases h
    | dly n => cases h
    | brl l c a => cases h
    | brf f c a => cases h
    | jmp a => cases h
  · rintro ⟨rfl, hheld⟩
    rw [events_wrf_heldFlag, hheld]
    rfl

/-- Settles O58: no tick writes a Held bit, and an operation that does is one of the two writes of the
button's poll, where the run remembers the samples. -/
theorem edgesAreSeparatedByConfirmedReleases : Obligations.EdgesAreSeparatedByConfirmedReleases := by
  unfold Obligations.EdgesAreSeparatedByConfirmedReleases
  intro s t b hs h
  obtain ⟨hr, hinv, ⟨-, hsamples⟩, hpressed⟩ := runInv_of_visited hs
  obtain ⟨hr', -⟩ | ⟨-, -, rfl⟩ | ⟨⟨-, -, ht⟩, hwf, hexec⟩ := step_cases_of_refInv hinv h
  case inl => exact absurd (hr'.symm.trans hr) Bool.false_ne_true
  case inr.inl =>
    have hheld : s.tick.held b = s.held b := rfl
    rw [hheld, tick_tr]
    refine ⟨fun htr => ?_, fun hidle hheld' => ?_, fun hheld' hidle => ?_⟩
    · simp at htr
    · exact absurd (hidle.symm.trans hheld') Bool.false_ne_true
    · exact absurd (hidle.symm.trans hheld') Bool.false_ne_true
  case inr.inr =>
    obtain ⟨-, -, hcs, -⟩ := hinv
    have hafter : t.held b = flagAfter (heldFlag b) (s.held b) (imageInstr s.cs) :=
      exec_readFlag _ hwf hexec
    have hedge : t.tr = s.tr ++ [⟨s.now, .edge b⟩] ↔
        imageInstr s.cs = .wrf (heldFlag b) true ∧ s.held b = false := by
      rw [exec_tr hwf hexec, List.append_cancel_left_eq, ← events_eq_edge_iff hwf, stampedEvents,
        List.map_eq_singleton_iff]
      simp
    rw [hedge]
    refine ⟨fun ⟨hi, hidle⟩ => ?edge, fun hidle hheld => ?set, fun hheld hidle => ?clear⟩
    case edge =>
      refine ⟨hidle, ?_, hpressed b (imageInstr_eq_wrf b _ hcs true hi)⟩
      rw [hafter, hi]
      exact if_pos rfl
    case set =>
      rw [hafter, hidle] at hheld
      exact ⟨eq_wrf_of_flagAfter hheld, hidle⟩
    case clear =>
      rw [hafter, hheld] at hidle
      have haddr := imageInstr_eq_wrf b _ hcs false (eq_wrf_of_flagAfter hidle)
      have hthree : releasedSamples b s.cs.toNat = [10, 5, 0] := by
        rw [haddr]
        cases b <;> rfl
      have htaken : ∀ d ∈ [10, 5, 0], d ≤ s.now ∧ s.env.btn b (s.now - d) = true := by
        have hlast := hsamples b
        rwa [hthree, ht] at hlast
      obtain ⟨hle, hfirst⟩ := htaken 10 (by decide)
      obtain ⟨-, hsecond⟩ := htaken 5 (by decide)
      obtain ⟨-, hthird⟩ := htaken 0 (by decide)
      exact ⟨hle, hfirst, hsecond, hthird⟩

end Sys2Proof.Proofs

/-! PROOFS about Zeno loops (spec/70_reset_and_hazards.md R208, U2) and the bound of R173. -/

namespace Sys2Proof.Proofs

open Sys2Proof.Machine Sys2Proof.Laws

/-! The check `settles`, one operation at a time. -/

theorem settles_of_reserved {m : Memory} {a : StepAddr} {r : Reserved} (k : Nat)
    (h : decodeWord (m.readWord a) = .error r) : settles m (k + 1) a = true := by
  simp only [settles, h]

/-- A path settles at an operation that starts a delay, or if it settles on from it, either way. -/
theorem settles_succ_iff {m : Memory} {a : StepAddr} {i : Instr} (k : Nat)
    (h : decodeWord (m.readWord a) = .ok i) :
    settles m (k + 1) a = true ↔
      delayOf i ≠ 0 ∨ ∀ taken, settles m k (nextAddr taken a i) = true := by
  cases i <;> simp [settles, h, delayOf, nextAddr, and_comm]

/-- More steps do not hurt. -/
theorem settles_mono {m : Memory} {k n : Nat} (hkn : k ≤ n) {a : StepAddr}
    (h : settles m k a = true) : settles m n a = true := by
  induction k generalizing n a with
  | zero => cases h
  | succ k ih =>
    obtain ⟨n, rfl⟩ := Nat.exists_eq_add_of_le' hkn
    have hle : k ≤ n + k := by omega
    rw [← Nat.add_assoc]
    cases hi : decodeWord (m.readWord a) with
    | error r => exact settles_of_reserved _ hi
    | ok i =>
      rw [settles_succ_iff _ hi] at h ⊢
      exact h.imp_right fun hnext taken => ih hle (hnext taken)

/-- A path that settles is a run that ends in a running delay or in the fault, at one `now`. -/
theorem exists_steps_of_settles (k : Nat) {s : State} (he : ExecEnabled s)
    (h : settles s.rom k s.cs = true) :
    ∃ j t, j ≤ k ∧ Steps j s t ∧ t.now = s.now ∧ (t.tmr ≠ 0 ∨ t.fault = true) := by
  induction k generalizing s with
  | zero => cases h
  | succ k ih =>
    cases hi : decodeWord (s.rom.readWord s.cs) with
    | error r =>
      have hstep := step_of_reserved he ((fetch_eq_decodeWord s).trans hi)
      exact ⟨1, s.illegalStep, by omega, steps_one hstep, rfl, .inr rfl⟩
    | ok i =>
      obtain ⟨hr, hf, ht⟩ := id he
      have hwf := wellFormed_of_decodeWord hi
      obtain ⟨u, hu⟩ := exec_next i s
      have hstep := (step_of_fetch he ((fetch_eq_decodeWord s).trans hi)).trans hu
      have hnow := exec_now hu
      have htmr := exec_tmr hwf ht hu
      obtain hdelay | hnext := (settles_succ_iff k hi).mp h
      · exact ⟨1, u, by omega, steps_one hstep, hnow, .inl (htmr ▸ hdelay)⟩
      · by_cases hdelay : delayOf i = 0
        · have he' : ExecEnabled u := ⟨(exec_rstN hu).trans hr, (exec_fault hwf hu).trans hf,
            htmr.trans hdelay⟩
          have hsettles : settles u.rom k u.cs = true := by
            rw [exec_rom hu, exec_cs hwf hu]
            exact hnext _
          obtain ⟨j, t, hj, hrun, hnow', hend⟩ := ih he' hsettles
          exact ⟨j + 1, t, by omega, steps_cons hstep hrun, hnow'.trans hnow, hend⟩
        · exact ⟨1, u, by omega, steps_one hstep, hnow, .inl (htmr ▸ hdelay)⟩

/-- Settles O46: the check has looked at the address in `CS`. -/
theorem zenoFreeStoreNeverHangs : Obligations.ZenoFreeStoreNeverHangs := by
  unfold Obligations.ZenoFreeStoreNeverHangs
  intro s hz he
  have hat := List.all_eq_true.mp hz s.cs.toNat (List.mem_range.mpr s.cs.isLt)
  rw [BitVec.ofNat_toNat, BitVec.setWidth_eq] at hat
  exact exists_steps_of_settles 128 he hat

/-! The reference image. -/

/-- A ranking of the step addresses 0x00 to 0x42: the most exec steps from there up to a delay (R173). -/
def stepsToDelay (a : StepAddr) : Nat :=
  ([ 4, 3, 2, 1, 2, 1, 2, 1, 2, 1, 17, 16, 4, 3, 2, 1, 3, 2, 1, 2,
     1, 2, 1, 2, 1, 17, 16, 16, 1, 16, 1, 17, 16, 15, 14, 13, 12, 11, 10, 9,
     11, 10, 9, 9, 1, 9, 1, 10, 9, 8, 7, 6, 5, 4, 3, 2, 4, 3, 2, 2,
     1, 2, 1, 3, 2, 1, 18 ] : List Nat).getD a.toNat 0

/-- Every operation of the image starts a delay or leads to an address of lower rank. -/
theorem stepsToDelay_imageNext : ∀ a : StepAddr, a.toNat ≤ 0x42 →
    0 < stepsToDelay a ∧ stepsToDelay a ≤ 18 ∧
    (delayOf (imageInstr a) ≠ 0 ∨ ∀ taken, stepsToDelay (imageNext taken a) < stepsToDelay a) :=
  forall_of_forall_le (by decide)

theorem settles_of_stepsToDelay_le {k : Nat} {a : StepAddr} (ha : a.toNat ≤ 0x42)
    (hk : stepsToDelay a ≤ k) : settles [] k a = true := by
  obtain ⟨hpos, -, hrank⟩ := stepsToDelay_imageNext a ha
  induction k generalizing a with
  | zero => omega
  | succ k ih =>
    have hi : decodeWord (Memory.readWord [] a) = .ok (imageInstr a) := by
      rw [readWord_nil, decodeWord_imageWord a ha]
    refine (settles_succ_iff k hi).mpr (hrank.imp_right fun hlower taken => ?_)
    have hnext := imageNext_le a ha taken
    obtain ⟨hpos', -, hrank'⟩ := stepsToDelay_imageNext _ hnext
    exact ih hnext (Nat.le_of_lt_succ ((hlower taken).trans_le hk)) hpos' hrank'

theorem settles_image {a : StepAddr} (ha : a.toNat ≤ 0x42) : settles [] 18 a = true := by
  obtain ⟨-, hle, -⟩ := stepsToDelay_imageNext a ha
  exact settles_of_stepsToDelay_le ha hle

theorem zenoFree_image : zenoFree [] = true := by
  refine List.all_eq_true.mpr fun k _ => ?_
  by_cases hk : (BitVec.ofNat 7 k).toNat ≤ 0x42
  · exact settles_mono (by decide) (settles_image hk)
  · have hzero : Memory.readWord [] (BitVec.ofNat 7 k) = 0 :=
      (readWord_nil _).trans (imageWord_of_unused (by omega))
    refine settles_of_reserved (r := .opcode) 127 ?_
    rw [hzero]
    rfl

/-- A jump to itself never settles. -/
theorem settles_of_jmp_self {m : Memory} {a : StepAddr} (h : decodeWord (m.readWord a) = .ok (.jmp a))
    (k : Nat) : settles m k a = false := by
  induction k with
  | zero => rfl
  | succ k ih => simp [settles, h, ih]

/-- Settles O47: the ranking bounds every path; the longest is the jump back and a round
with both toggles. -/
theorem referenceImageIsZenoFree : Obligations.ReferenceImageIsZenoFree := by
  unfold Obligations.ReferenceImageIsZenoFree
  refine ⟨zenoFree_image, fun k hk => settles_image ?_, by decide, ?_⟩
  · rw [BitVec.toNat_ofNat]
    omega
  · refine Bool.eq_false_iff.mpr fun hz => ?_
    have hself : decodeWord ((Memory.writeWord [] 0x10 0x7010).readWord 0x10) = .ok (.jmp 0x10) := by
      rw [readWord_writeWord rfl, if_pos rfl]
      rfl
    have hat := List.all_eq_true.mp hz 0x10 (by decide)
    exact absurd (hat.symm.trans (settles_of_jmp_self hself 128)) Bool.true_eq_false.mp

/-- Settles O45: the image settles within 18 steps, and the table knows no fault. -/
theorem modelTimeAlwaysAdvances : Obligations.ModelTimeAlwaysAdvances := by
  unfold Obligations.ModelTimeAlwaysAdvances
  intro s hs hr
  obtain ⟨k, t, hk, hrun, hnow, ht⟩ : ∃ k t, k ≤ 18 ∧ Steps k s t ∧ t.now = s.now ∧ t.tmr ≠ 0 := by
    by_cases ht : s.tmr = 0
    · obtain ⟨hrom, hfault, hcs, -⟩ := id hs
      obtain ⟨k, t, hk, hrun, hnow, hend⟩ := exists_steps_of_settles 18 ⟨hr, hfault, ht⟩
        (hrom ▸ settles_image hcs)
      obtain ⟨-, hfault', -⟩ := steps_induction referenceInvariantIsKept hs hrun
      exact ⟨k, t, hk, hrun, hnow, hend.resolve_right (ne_true_of_eq_false hfault')⟩
    · exact ⟨0, s, by decide, steps_zero s, rfl, ht⟩
  obtain ⟨-, hfault, -⟩ := steps_induction referenceInvariantIsKept hs hrun
  have hr' := steps_rstN hr hrun
  exact ⟨k, t, _, hk, hrun, ht, hnow, step_of_tmr hr' hfault ht, congrArg (· + 1) hnow⟩

end Sys2Proof.Proofs

/-! PROOFS that running the reference image is the behaviour of the rules (R6, log 14): startup R131 to R133,
a poll R118, an iteration of the loop R161. -/

namespace Sys2Proof.Proofs

open Sys2Proof.Machine Sys2Proof.Laws

/-! Startup. -/

/-- The code of startup (R131) up to the loop. -/
def startupCode : List Instr :=
  [.wr .haltReq true, .dir true, .wr .ledAux true, .dly 1500, .wr .dcOk true, .dly 10,
    .wr .pwrOk true, .dly 100, .wr .ledRun true, .dly 500]

theorem steps_startup {s : State} (h : AtReference s) :
    Steps 2120 (s.goto 0x00) (s.startup.goto 0x0A) :=
  steps_of_holdsStraight startupCode h (by decide)

/-- Nothing in the loop leads back below it, checked at the 67 addresses. -/
theorem loop_le_imageNext : ∀ a : StepAddr, a.toNat ≤ 0x42 → 0x0A ≤ a.toNat → ∀ taken,
    0x0A ≤ (imageNext taken a).toNat := forall_of_forall_le (by decide)

/-- Settles O48: the code of startup is its behaviour, and that evaluates from the reset values to the
state of R133. -/
theorem startupSequenceRuns : Obligations.StartupSequenceRuns := by
  unfold Obligations.StartupSequenceRuns
  refine ⟨fun s hs => ?startup, fun s t hs hloop h => ?loop⟩
  case startup =>
    have hrun := steps_startup (atReference_of_started hs)
    obtain ⟨e, -, rfl⟩ := hs
    have hflag : setBit 0b1000#4 3 true = 0b1000#4 := by decide
    have hout : [2, 5, 1, 0, 3].foldl (setBit · · true) 0#6 = 0b101111#6 := by decide
    exact ⟨_, hrun, rfl, rfl, rfl, rfl, hout, hflag, rfl, rfl⟩
  case loop =>
    obtain ⟨hr, hinv, -, -⟩ := runInv_of_visited hs
    obtain ⟨hr', -⟩ | ⟨-, -, rfl⟩ | ⟨-, hwf, hexec⟩ := step_cases_of_refInv hinv h
    · exact absurd (hr'.symm.trans hr) Bool.false_ne_true
    · exact hloop
    · obtain ⟨-, -, hcs, -⟩ := hinv
      rw [exec_cs hwf hexec]
      exact loop_le_imageNext _ hcs hloop _

/-! A behaviour knows no step address (R6): it does the same wherever `CS` points. -/

theorem lineWrite_goto (l : Line) (v : Bool) (a : StepAddr) (s : State) :
    (s.goto a).lineWrite l v = (s.lineWrite l v).goto a := by cases l <;> rfl

theorem setDir_goto (d : Bool) (a : StepAddr) (s : State) :
    (s.goto a).setDir d = (s.setDir d).goto a := rfl

theorem sleep_goto (n : Nat) (a : StepAddr) (s : State) :
    (s.goto a).sleep n = (s.sleep n).goto a := rfl

theorem writeHeld_goto (b : Button) (v : Bool) (a : StepAddr) (s : State) :
    (s.goto a).writeHeld b v = (s.writeHeld b v).goto a := by
  rw [writeHeld_eq, writeHeld_eq]
  rfl

theorem resetSequence_goto (a : StepAddr) (s : State) :
    (s.goto a).resetSequence = s.resetSequence.goto a := by
  simp only [State.resetSequence, lineWrite_goto, sleep_goto]

theorem haltToggle_goto (a : StepAddr) (s : State) :
    (s.goto a).haltToggle = s.haltToggle.goto a := by
  simp only [haltToggle_eq, lineWrite_goto, goto_out]

theorem auxToggle_goto (a : StepAddr) (s : State) :
    (s.goto a).auxToggle = s.auxToggle.goto a := by
  simp only [auxToggle_eq, setDir_goto, lineWrite_goto]
  rfl

theorem handler_goto (b : Button) (a : StepAddr) (s : State) :
    (s.goto a).handler b = (s.handler b).goto a := by
  cases b with
  | reset => exact resetSequence_goto a s
  | halt => exact haltToggle_goto a s
  | aux => exact auxToggle_goto a s

theorem confirmRelease_goto (b : Button) (k : Nat) (a : StepAddr) (s : State) :
    (s.goto a).confirmRelease b k = (s.confirmRelease b k).goto a := by
  induction k generalizing s with
  | zero => exact writeHeld_goto b false a s
  | succ k ih =>
    simp only [State.confirmRelease, sleep_goto, goto_env, goto_now, ih]
    split <;> rfl

theorem held_goto (b : Button) (a : StepAddr) (s : State) : (s.goto a).held b = s.held b := rfl

theorem poll_goto (b : Button) (a : StepAddr) (s : State) :
    (s.goto a).poll b = (s.poll b).goto a := by
  simp only [State.poll, held_goto, goto_env, goto_now, confirmRelease_goto, writeHeld_goto,
    handler_goto]
  split
  · split <;> rfl
  · split <;> rfl

/-! The cases of a poll as behaviour (R118). -/

theorem poll_of_idle {b : Button} {s : State} (h : s.held b = false) :
    s.poll b = if s.env.btn b s.now then s else (s.writeHeld b true).handler b := by
  rw [State.poll, if_neg (ne_true_of_eq_false h)]

theorem poll_of_held {b : Button} {s : State} (h : s.held b = true) :
    s.poll b = if s.env.btn b s.now then s.confirmRelease b 2 else s := by
  rw [State.poll, if_pos h]
  rfl

theorem confirmRelease_two (b : Button) (s : State) :
    s.confirmRelease b 2 =
      if s.env.btn b (s.now + 5) then
        if s.env.btn b (s.now + 10) then (s.sleep 10).writeHeld b false else s.sleep 10
      else s.sleep 5 := rfl

/-- Settles O54: the cases of R111 to R116, each a run of the image and a case of the behaviour. -/
theorem pollRefinesItsBehaviour : Obligations.PollRefinesItsBehaviour := by
  unfold Obligations.PollRefinesItsBehaviour
  intro b s h hcs
  cases hheld : s.held b
  case false =>
    rw [poll_of_idle hheld]
    cases hs : s.env.btn b s.now
    case true => exact ⟨2, steps_poll_of_idle_released h hcs hheld hs⟩
    case false =>
      have hedge := steps_poll_of_idle_pressed h hcs hheld hs
      obtain ⟨n, hhandler⟩ := exists_steps_handler b (atReference_writeHeld h b true)
      exact ⟨3 + n, steps_trans hedge hhandler⟩
  case true =>
    rw [poll_of_held hheld, confirmRelease_two]
    obtain ⟨hfirst, hsecond, hthird, -⟩ := heldPollConfirmsTheRelease b s h hcs hheld
    cases hs₁ : s.env.btn b s.now
    case false => exact ⟨2, hfirst hs₁⟩
    case true =>
      cases hs₂ : s.env.btn b (s.now + 5)
      case false => exact ⟨9, hsecond hs₁ hs₂⟩
      case true =>
        cases hs₃ : s.env.btn b (s.now + 10)
        case false => exact ⟨16, hthird hs₁ hs₂ hs₃⟩
        case true => exact ⟨17, steps_confirmed h hcs hheld hs₁ hs₂ hs₃⟩

/-! One iteration (R161). -/

theorem atReference_handler {s : State} (h : AtReference s) (b : Button) :
    AtReference (s.handler b) := by
  cases b with
  | reset => simpa [State.handler, State.resetSequence, AtReference, ExecEnabled] using h
  | halt => simpa [State.handler, haltToggle_eq, AtReference, ExecEnabled] using h
  | aux => simpa [State.handler, auxToggle_eq, AtReference, ExecEnabled] using h

theorem atReference_confirmRelease {s : State} (h : AtReference s) (b : Button) (k : Nat) :
    AtReference (s.confirmRelease b k) := by
  induction k generalizing s with
  | zero => exact atReference_writeHeld h b false
  | succ k ih =>
    have hsleep : AtReference (s.sleep Config.tConf) := h
    rw [State.confirmRelease]
    split
    · exact ih hsleep
    · exact hsleep

theorem atReference_poll {s : State} (h : AtReference s) (b : Button) : AtReference (s.poll b) := by
  cases hheld : s.held b
  · rw [poll_of_idle hheld]
    split
    · exact h
    · exact atReference_handler (atReference_writeHeld h b true) b
  · rw [poll_of_held hheld]
    split
    · exact atReference_confirmRelease h b 2
    · exact h

/-- A poll run from wherever it starts in the image. -/
theorem exists_steps_poll (b : Button) {s : State} (h : AtReference s) :
    ∃ n, Steps n (s.goto (addrPoll b)) ((s.poll b).goto (addrNext b)) := by
  obtain ⟨n, hrun⟩ := pollRefinesItsBehaviour b (s.goto (addrPoll b)) h rfl
  rw [poll_goto] at hrun
  exact ⟨n, hrun⟩

/-- The inter-cycle delay and the jump back to the top (R164). -/
theorem steps_loopDelay {s : State} (h : AtReference s) :
    Steps 12 (s.goto 0x41) ((s.sleep 10).goto 0x0A) :=
  steps_of_holdsStraight_jmp (a := 0x41) [.dly 10] h (by decide) (by decide)

/-- Settles O55: the three polls, each ending where the next one starts, then the delay. -/
theorem loopRefinesItsIteration : Obligations.LoopRefinesItsIteration := by
  unfold Obligations.LoopRefinesItsIteration
  intro s h hcs
  have h₁ := atReference_poll h .reset
  have h₂ := atReference_poll h₁ .halt
  have h₃ := atReference_poll h₂ .aux
  obtain ⟨n₁, hreset⟩ := exists_steps_poll .reset h
  obtain ⟨n₂, hhalt⟩ := exists_steps_poll .halt h₁
  obtain ⟨n₃, haux⟩ := exists_steps_poll .aux h₂
  have hstart : s.goto (addrPoll .reset) = s := goto_of_cs hcs
  rw [hstart] at hreset
  exact ⟨_, steps_trans hreset (steps_trans hhalt (steps_trans haux (steps_loopDelay h₃)))⟩

/-! How long an iteration takes (R165). -/

theorem handler_now (b : Button) (s : State) :
    (s.handler b).now = s.now + if b = .reset then 410 else 0 := by
  cases b with
  | reset => rw [State.handler, resetSequence_frame]; rfl
  | halt => rw [State.handler, haltToggle_frame]; rfl
  | aux => rw [State.handler, auxToggle_frame]; rfl

theorem confirmRelease_now (b : Button) (k : Nat) (s : State) :
    s.now ≤ (s.confirmRelease b k).now ∧ (s.confirmRelease b k).now ≤ s.now + 5 * k := by
  induction k generalizing s with
  | zero => simp [State.confirmRelease]
  | succ k ih =>
    have hnext := ih (s.sleep Config.tConf)
    have hsleep : (s.sleep Config.tConf).now = s.now + 5 := rfl
    rw [State.confirmRelease]
    split <;> omega

/-- A poll takes at most the two settle delays, or the time of its handler if it takes the edge. -/
theorem poll_now (b : Button) (s : State) :
    s.now ≤ (s.poll b).now ∧
    ((s.poll b).now ≤ s.now + 10 ∨
      s.held b = false ∧ s.env.btn b s.now = false ∧ b = .reset ∧ (s.poll b).now ≤ s.now + 410) := by
  have hconfirm := confirmRelease_now b 2 s
  have hhandler := handler_now b (s.writeHeld b true)
  rw [writeHeld_now] at hhandler
  cases hheld : s.held b
  · rw [poll_of_idle hheld]
    cases hs : s.env.btn b s.now
    · by_cases hb : b = .reset
      · rw [if_pos hb] at hhandler
        exact ⟨by simp [hhandler], .inr ⟨rfl, rfl, hb, by simp [hhandler]⟩⟩
      · rw [if_neg hb] at hhandler
        simp [hhandler]
    · simp
  · rw [poll_of_held hheld]
    split <;> omega

/-- Settles O56: three polls of at most 10 ms, but for the reset sequence, and the delay of 10 ms. -/
theorem iterationTakesTenToFourHundredFortyMs :
    Obligations.IterationTakesTenToFourHundredFortyMs := by
  unfold Obligations.IterationTakesTenToFourHundredFortyMs
  intro s
  obtain ⟨hmin₁, hmax₁⟩ := poll_now .reset s
  obtain ⟨hmin₂, hmax₂⟩ := poll_now .halt (s.poll .reset)
  obtain ⟨hmin₃, hmax₃⟩ := poll_now .aux ((s.poll .reset).poll .halt)
  have hloop : s.iteration.now = (((s.poll .reset).poll .halt).poll .aux).now + 10 := rfl
  simp only [reduceCtorEq, false_and, and_false, or_false] at hmax₂ hmax₃
  refine ⟨by omega, by omega, fun hquiet => ?_⟩
  have hshort : (s.poll .reset).now ≤ s.now + 10 := by
    refine hmax₁.resolve_right ?_
    rintro ⟨hidle, hpressed, -⟩
    simp [hidle, hpressed] at hquiet
  omega

/-! Toggles in a row (R139, R151). -/

theorem odd_succ (n : Nat) (v : Bool) : (v ^^ ((n + 1) % 2 == 1)) = !(v ^^ (n % 2 == 1)) := by
  obtain hn | hn := Nat.mod_two_eq_zero_or_one n <;> simp [Nat.add_mod, hn]

theorem busConsistent_haltToggle (s : State) : BusConsistent s.haltToggle := by
  rw [BusConsistent, getLsbD_out_haltToggle, getLsbD_out_haltToggle]
  rfl

theorem drv_auxToggle (s : State) : s.auxToggle.drv = !s.drv := getLsbD_flag_auxToggle s 3

theorem auxConsistent_auxToggle (s : State) : AuxConsistent s.auxToggle := by
  rw [AuxConsistent, getLsbD_out_auxToggle, drv_auxToggle]
  rfl

/-- Settles O57, by induction on the number of toggles; one toggle makes its pair agree from any state. -/
theorem togglesAlternate : Obligations.TogglesAlternate := by
  unfold Obligations.TogglesAlternate
  intro n s hbus haux
  induction n with
  | zero => simpa using ⟨hbus, haux⟩
  | succ n ih =>
    obtain ⟨hreq, -, hdrv, -⟩ := ih
    simp only [Function.iterate_succ_apply', odd_succ, ← hreq, ← hdrv]
    exact ⟨getLsbD_out_haltToggle _ 2, busConsistent_haltToggle _, drv_auxToggle _,
      auxConsistent_auxToggle _⟩

end Sys2Proof.Proofs

/-! PROOFS for what the reference image contains (spec/44_main_control_loop.md R172). -/

namespace Sys2Proof.Proofs

open Sys2Proof.Machine Sys2Proof.Laws

/-- The operands R172 allows: targets in the loop, the listed delays, the lines that a branch may read. -/
def operandsListed : Instr → Bool
  | .dly n => decide (n.toNat ∈ [5, 10, 100, 500, 1500])
  | .brl l _ t =>
    decide (l = .btnReset ∨ l = .btnHalt ∨ l = .btnAux ∨ l = .haltReq) &&
      decide (0x0A ≤ t.toNat ∧ t.toNat ≤ 0x41)
  | .brf _ _ t | .jmp t => decide (0x0A ≤ t.toNat ∧ t.toNat ≤ 0x41)
  | .wr _ _ | .dir _ | .wrf _ _ => true

theorem operandsListed_imageInstr : ∀ a : StepAddr, a.toNat ≤ 0x42 →
    operandsListed (imageInstr a) = true := forall_of_forall_le (by decide)

theorem decodeWord_readWord_reset {k : Nat} (hk : k ≤ 0x42) :
    decodeWord (State.reset.rom.readWord (BitVec.ofNat 7 k)) =
      .ok (imageInstr (BitVec.ofNat 7 k)) := by
  rw [readWord_reset]
  refine decodeWord_imageWord _ ?_
  rw [BitVec.toNat_ofNat]
  omega

theorem operandsListed_of_decode {k : Nat} {i : Instr} (hk : k ≤ 0x42)
    (h : decodeWord (State.reset.rom.readWord (BitVec.ofNat 7 k)) = .ok i) :
    operandsListed i = true := by
  cases (decodeWord_readWord_reset hk).symm.trans h
  refine operandsListed_imageInstr _ ?_
  rw [BitVec.toNat_ofNat]
  omega

/-- Settles O37: the operands checked at the 67 addresses, and an address for each operation that occurs. -/
theorem referenceImageIsWellFormed : Obligations.ReferenceImageIsWellFormed := by
  unfold Obligations.ReferenceImageIsWellFormed
  refine ⟨fun k hk => ⟨_, decodeWord_readWord_reset hk⟩, fun k a hk h => ?targets, ⟨0x0A, rfl⟩,
    fun k n hk h => ?delays, fun k l c a hk h => ?lines, fun l hl => ?written, fun f => ?tested,
    fun f hf => ?held, fun d => ?driven⟩
  case targets =>
    obtain h | ⟨l, c, h⟩ | ⟨f, c, h⟩ := h
    · simpa [operandsListed] using operandsListed_of_decode hk h
    · have hlisted := operandsListed_of_decode hk h
      rw [operandsListed, Bool.and_eq_true] at hlisted
      exact of_decide_eq_true hlisted.2
    · simpa [operandsListed] using operandsListed_of_decode hk h
  case delays => exact of_decide_eq_true (operandsListed_of_decode hk h)
  case lines =>
    have hlisted := operandsListed_of_decode hk h
    rw [operandsListed, Bool.and_eq_true] at hlisted
    exact of_decide_eq_true hlisted.1
  case written =>
    cases l with
    | pwrOk => exact ⟨0x06, true, by decide, rfl⟩
    | dcOk => exact ⟨0x04, true, by decide, rfl⟩
    | haltReq => exact ⟨0x00, true, by decide, rfl⟩
    | ledRun => exact ⟨0x08, true, by decide, rfl⟩
    | ledHalt => exact ⟨0x0E, false, by decide, rfl⟩
    | ledAux => exact ⟨0x02, true, by decide, rfl⟩
    | btnReset => cases hl
    | btnHalt => cases hl
    | btnAux => cases hl
    | pclk => cases hl
  case tested =>
    cases f with
    | heldR => exact ⟨0x0A, true, 0x1B, by decide, rfl⟩
    | heldH => exact ⟨0x21, true, 0x2B, by decide, rfl⟩
    | heldA => exact ⟨0x31, true, 0x3B, by decide, rfl⟩
    | drv => exact ⟨0x34, false, 0x38, by decide, rfl⟩
  case held =>
    cases f with
    | heldR => exact ⟨0x0C, true, by decide, rfl⟩
    | heldH => exact ⟨0x23, true, by decide, rfl⟩
    | heldA => exact ⟨0x33, true, by decide, rfl⟩
    | drv => cases hf
  case driven =>
    cases d with
    | false => exact ⟨0x35, by decide, rfl⟩
    | true => exact ⟨0x01, by decide, rfl⟩

end Sys2Proof.Proofs
